-- ==== Sys2Proof/Word.lean ====
section
/-! DEFINITION. The word, byte and register-number types of CORE (spec 00_scope.md R6, R8; 10_state.md R21). -/

namespace Sys2Proof

/-- A 16-bit unsigned value: the unit of memory, registers, addresses and instructions (R8). -/
abbrev Word := BitVec 16

/-- One character, 0 to 255 (R37). -/
abbrev Byte := BitVec 8

/-- The number of a general register, R0 to R7 (R21). -/
abbrev Reg := Fin 8

end Sys2Proof
end

