-- ==== Sys2Proof/Syntax.lean ====
section
/-! DEFINITION. The instructions of CORE: one constructor for each of the 25 rows of spec/opcode_table.json. -/

namespace Sys2Proof

/-- A decoded instruction. The fields are those of 30_encoding.md R77; a bit the instruction does not use (R86) is no
field, except in the two reserved classes, whose terminal record holds the whole instruction word (R185, log 12). -/
inductive Instr where
  /-- BR, R105: the mask bits n, z, p and the signed offset. -/
  | br (n z p : Bool) (pcOffset9 : BitVec 9)
  /-- ADD, register form, R110. -/
  | addReg (dr sr1 sr2 : Reg)
  /-- ADD, immediate form, R110. -/
  | addImm (dr sr1 : Reg) (imm5 : BitVec 5)
  /-- LD, R120. -/
  | ld (dr : Reg) (pcOffset9 : BitVec 9)
  /-- ST, R124. -/
  | st (sr : Reg) (pcOffset9 : BitVec 9)
  /-- JSR, R141. -/
  | jsr (pcOffset11 : BitVec 11)
  /-- JSRR, R142. -/
  | jsrr (baseR : Reg)
  /-- AND, register form, R111. -/
  | andReg (dr sr1 sr2 : Reg)
  /-- AND, immediate form, R111. -/
  | andImm (dr sr1 : Reg) (imm5 : BitVec 5)
  /-- LDR, R122. -/
  | ldr (dr baseR : Reg) (offset6 : BitVec 6)
  /-- STR, R126. -/
  | str (sr baseR : Reg) (offset6 : BitVec 6)
  /-- RTI, reserved, R181: the low 12 bits of its word. -/
  | rti (unused : BitVec 12)
  /-- NOT, R112. -/
  | not (dr sr : Reg)
  /-- LDI, R121. -/
  | ldi (dr : Reg) (pcOffset9 : BitVec 9)
  /-- STI, R125. -/
  | sti (sr : Reg) (pcOffset9 : BitVec 9)
  /-- JMP, R140 (RET is JMP R7, R101). -/
  | jmp (baseR : Reg)
  /-- RES, reserved, R180: the low 12 bits of its word. -/
  | res (unused : BitVec 12)
  /-- LEA, R123. -/
  | lea (dr : Reg) (pcOffset9 : BitVec 9)
  /-- TRAP, R150, with its vector; the six recognised vectors have constructors of their own (log 17). -/
  | trap (trapvect8 : BitVec 8)
  /-- GETC, TRAP x20, R160. -/
  | getc
  /-- OUT, TRAP x21, R162. -/
  | out
  /-- PUTS, TRAP x22, R164. -/
  | puts
  /-- IN, TRAP x23, R166 (`in` is a word of Lean's own). -/
  | inp
  /-- PUTSP, TRAP x24, R170. -/
  | putsp
  /-- HALT, TRAP x25, R172. -/
  | halt
  deriving DecidableEq, Repr

end Sys2Proof
end

