-- ==== Sys2Proof/WellFormed.lean ====
section
/-! DEFINITION. Which terms of `Instr` are instructions the decoder can answer. Field widths are in the types, so one
check is left: a recognised TRAP vector is written with its service's own constructor. -/

namespace Sys2Proof

/-- The six recognised trap vectors, "exactly the six of rule R150" (44_trap.md R151; values from D4). -/
def recognisedVectors : List (BitVec 8) := [0x20, 0x21, 0x22, 0x23, 0x24, 0x25]

/-- `.trap v` stands for the TRAP words whose vector no service has; GETC to HALT stand for the other six. -/
def Instr.wellFormed : Instr → Bool
  | .trap v => !recognisedVectors.contains v
  | .br _ _ _ _ | .addReg _ _ _ | .addImm _ _ _ | .ld _ _ | .st _ _ | .jsr _ | .jsrr _ | .andReg _ _ _
  | .andImm _ _ _ | .ldr _ _ _ | .str _ _ _ | .rti _ | .not _ _ | .ldi _ _ | .sti _ _ | .jmp _ | .res _
  | .lea _ _ | .getc | .out | .puts | .inp | .putsp | .halt => true

end Sys2Proof
end

