-- ==== Sys2Proof/Decode.lean ====
section
/-! DEFINITION. The decoder and the encoder (spec 30_encoding.md R75 to R88). Decoding is total: every 16-bit word is
exactly one instruction, and the two reserved classes are instructions of their own (R85), so no word is rejected here:
RES and RTI are rejected by name when they execute (45_reserved.md). Opcode values and vectors are those of R84 and
R150, which the spec takes from the LC-3 (log 1). -/

namespace Sys2Proof

/-- The opcode field `ir[15:12]` (R76). -/
def opcodeOf (ir : Word) : BitVec 4 := ir.extractLsb' 12 4

/-- The register number in the three bits of `ir` from bit `lo` up (R81). -/
def regField (ir : Word) (lo : Nat) : Reg := (ir.extractLsb' lo 3).toFin

/-- The TRAP class: the six recognised vectors, and every other vector (R150, R151). -/
def decodeTrap (v : BitVec 8) : Instr :=
  match v with
  | 0x20#8 => .getc
  | 0x21#8 => .out
  | 0x22#8 => .puts
  | 0x23#8 => .inp
  | 0x24#8 => .putsp
  | 0x25#8 => .halt
  | _ => .trap v

/-- The instruction of a word: the class by `ir[15:12]` (R84), the form by `ir[5]` or `ir[11]` (R85), the fields where
R77 puts them. Bits marked `u` in R78 are not looked at (R86). -/
def decode (ir : Word) : Instr :=
  match opcodeOf ir with
  | 0x0#4 => .br (ir.getLsbD 11) (ir.getLsbD 10) (ir.getLsbD 9) (ir.extractLsb' 0 9)
  | 0x1#4 =>
    if ir.getLsbD 5 then .addImm (regField ir 9) (regField ir 6) (ir.extractLsb' 0 5)
    else .addReg (regField ir 9) (regField ir 6) (regField ir 0)
  | 0x2#4 => .ld (regField ir 9) (ir.extractLsb' 0 9)
  | 0x3#4 => .st (regField ir 9) (ir.extractLsb' 0 9)
  | 0x4#4 => if ir.getLsbD 11 then .jsr (ir.extractLsb' 0 11) else .jsrr (regField ir 6)
  | 0x5#4 =>
    if ir.getLsbD 5 then .andImm (regField ir 9) (regField ir 6) (ir.extractLsb' 0 5)
    else .andReg (regField ir 9) (regField ir 6) (regField ir 0)
  | 0x6#4 => .ldr (regField ir 9) (regField ir 6) (ir.extractLsb' 0 6)
  | 0x7#4 => .str (regField ir 9) (regField ir 6) (ir.extractLsb' 0 6)
  | 0x8#4 => .rti (ir.extractLsb' 0 12)
  | 0x9#4 => .not (regField ir 9) (regField ir 6)
  | 0xA#4 => .ldi (regField ir 9) (ir.extractLsb' 0 9)
  | 0xB#4 => .sti (regField ir 9) (ir.extractLsb' 0 9)
  | 0xC#4 => .jmp (regField ir 6)
  | 0xD#4 => .res (ir.extractLsb' 0 12)
  | 0xE#4 => .lea (regField ir 9) (ir.extractLsb' 0 9)
  | _ => decodeTrap (ir.extractLsb' 0 8)

/-- The three bits of a register field (R81). -/
def regBits (r : Reg) : BitVec 3 := BitVec.ofFin r

/-- The word of an instruction, written from the formats of R78. Unused bits are 0, but for NOT's `ir[5:0]`, where the
spec's assembler writes 0b111111 (R101). -/
def encode : Instr → Word
  | .br n z p off => 0x0#4 ++ BitVec.ofBool n ++ BitVec.ofBool z ++ BitVec.ofBool p ++ off
  | .addReg dr sr1 sr2 => 0x1#4 ++ regBits dr ++ regBits sr1 ++ 0b000#3 ++ regBits sr2
  | .addImm dr sr1 imm => 0x1#4 ++ regBits dr ++ regBits sr1 ++ 1#1 ++ imm
  | .ld dr off => 0x2#4 ++ regBits dr ++ off
  | .st sr off => 0x3#4 ++ regBits sr ++ off
  | .jsr off => 0x4#4 ++ 1#1 ++ off
  | .jsrr b => 0x4#4 ++ 0b000#3 ++ regBits b ++ 0b000000#6
  | .andReg dr sr1 sr2 => 0x5#4 ++ regBits dr ++ regBits sr1 ++ 0b000#3 ++ regBits sr2
  | .andImm dr sr1 imm => 0x5#4 ++ regBits dr ++ regBits sr1 ++ 1#1 ++ imm
  | .ldr dr b off => 0x6#4 ++ regBits dr ++ regBits b ++ off
  | .str sr b off => 0x7#4 ++ regBits sr ++ regBits b ++ off
  | .rti u => 0x8#4 ++ u
  | .not dr sr => 0x9#4 ++ regBits dr ++ regBits sr ++ 0b111111#6
  | .ldi dr off => 0xA#4 ++ regBits dr ++ off
  | .sti sr off => 0xB#4 ++ regBits sr ++ off
  | .jmp b => 0xC#4 ++ 0b000#3 ++ regBits b ++ 0b000000#6
  | .res u => 0xD#4 ++ u
  | .lea dr off => 0xE#4 ++ regBits dr ++ off
  | .trap v => 0xF#4 ++ 0x0#4 ++ v
  | .getc => 0xF020#16
  | .out => 0xF021#16
  | .puts => 0xF022#16
  | .inp => 0xF023#16
  | .putsp => 0xF024#16
  | .halt => 0xF025#16

/-- The bits of its word an instruction uses (R78, R86): all but those marked `u`. RES and RTI count all sixteen, since
their terminal record holds the whole word (R185, log 12). -/
def usedBits : Instr → Word
  | .addReg _ _ _ | .andReg _ _ _ => 0xFFE7
  | .jsrr _ => 0xF9C0
  | .not _ _ => 0xFFC0
  | .jmp _ => 0xF1C0
  | .trap _ | .getc | .out | .puts | .inp | .putsp | .halt => 0xF0FF
  | .br _ _ _ _ | .addImm _ _ _ | .ld _ _ | .st _ _ | .jsr _ | .andImm _ _ _ | .ldr _ _ _ | .str _ _ _ | .rti _
  | .ldi _ _ | .sti _ _ | .res _ | .lea _ _ => 0xFFFF

/-- The instruction the decoder reads from a row's bits. Every instruction is one 16-bit word (R75): bits above the
sixteen make it no instruction. -/
def decodeTableWord (nbits w : Nat) : Option Instr :=
  if nbits ≤ 16 ∧ w < 65536 then some (decode (BitVec.ofNat 16 w)) else none

end Sys2Proof
end

