-- ==== Sys2Proof/Config.lean ====
section
/-! DEFINITION. The implementation parameters of CORE (spec 00_scope.md R6; 92_eei_decisions.md D5, D16, D17) and the
one value the spec leaves free (20_memory.md R65, R67, R68). -/

namespace Sys2Proof

/-- The named parameters of R6. A value of this type is carried by the state, no step changes it, and every statement
holds for every value of it (log 2, log 3). -/
structure Config where
  /-- `KBSR_ADDR`, the address of the keyboard status register (R55). -/
  kbsrAddr : Word
  /-- `KBDR_ADDR`, the address of the keyboard data register (R55). -/
  kbdrAddr : Word
  /-- `IN_PROMPT`, the bytes the IN service writes before it reads (R166). -/
  inPrompt : List Byte
  /-- `HALT_NOTICE`, the bytes the HALT service writes (R172). -/
  haltNotice : List Byte
  deriving DecidableEq, Repr

/-- `PC_START`: the address of the first instruction fetched (R6, R216). -/
def pcStart : Word := 0x3000#16

/-- The parameters' defaults. The two addresses are the spec's defaults (R6, PRESUMED there from the LC-3); the two
texts are DESIGN CHOICE, the illustrations of D16 and D17, "Input a character> " and "HALT" with a newline (log 3). -/
def Config.default : Config where
  kbsrAddr := 0xFE00#16
  kbdrAddr := 0xFE02#16
  inPrompt :=
    [0x49, 0x6E, 0x70, 0x75, 0x74, 0x20, 0x61, 0x20, 0x63, 0x68, 0x61, 0x72, 0x61, 0x63, 0x74, 0x65, 0x72, 0x3E, 0x20]
  haltNotice := [0x48, 0x41, 0x4C, 0x54, 0x0A]

/-- R56: the two device addresses differ. -/
def Config.distinctDevices (c : Config) : Bool := c.kbsrAddr != c.kbdrAddr

/-- FREE VALUE (log 15, DESIGN CHOICE): how many content words of a stream had been placed when its load error was
detected. The spec says that the run ends with `LoadError`, and not what memory holds then. The argument is the stream. -/
opaque Config.wordsPlacedOnLoadError : List Byte → Nat

end Sys2Proof
end

