-- ==== Sys2Proof/Machine/State.lean ====
section
/-! DEFINITION. The state of CORE (spec 10_state.md R20 to R40), the parameters it runs with (R6), and the two
collaborators it talks to (R35 to R38), all as plain data. -/

namespace Sys2Proof.Machine

/-- The condition flags: "exactly one of three states, NEG, ZRO, POS" (R25, R26). -/
inductive Cond where
  | neg
  | zro
  | pos
  deriving DecidableEq, Repr

/-- Which transaction failed: an `InRead` or an `OutWrite` (R185). -/
inductive IoDir where
  | input
  | output
  deriving DecidableEq, Repr

/-- The run status: running, or one of the five terminal conditions with its record (R33, R185). -/
inductive RunStatus where
  | running
  /-- R186: the address of the HALT trap. -/
  | halted (a : Word)
  /-- R187: the instruction's address and its word. -/
  | invalidOpcode (a ir : Word)
  /-- R188: the instruction's address and its vector. -/
  | invalidTrap (a : Word) (trapvect8 : BitVec 8)
  /-- R189: the instruction's address and the direction that failed. -/
  | ioError (a : Word) (dir : IoDir)
  /-- R190: no record. -/
  | loadError
  deriving DecidableEq, Repr

/-- The code of a terminal condition at the terminal-result interface (R185; labels only, I24). -/
def RunStatus.code : RunStatus → Option Nat
  | .running => none
  | .halted _ => some 0
  | .invalidOpcode _ _ => some 1
  | .invalidTrap _ _ => some 2
  | .ioError _ _ => some 3
  | .loadError => some 4

/-- What the input collaborator answers to one `InRead`: a character, or an error (R37). -/
inductive InItem where
  | char (c : Byte)
  | error
  deriving DecidableEq, Repr

/-- What comes after the queued answers: the input has ended (D15), nothing has come yet (R34), or there is always one
more character, the only input that lets a string run for ever (I14, log 10). -/
inductive InTail where
  | ended
  | silent
  | endless (c : Byte)
  deriving DecidableEq, Repr

/-- The input collaborator (R35 to R37), held as data: the answers it will give, in order, what follows them, and the
answers of the next keyboard polls, one a poll (I7: "an oracle sequence of poll answers"). When `polls` is used up, a
poll answers ready exactly when input remains (95_test_vectors.md, conventions). The model's own field, log 5. -/
structure InputPort where
  queue : List InItem
  tail : InTail
  polls : List Bool
  deriving DecidableEq, Repr

/-- The output collaborator (R38): the bytes it has been given, oldest first, and after how many more bytes it will
report an error (`none`: never). The model's own field, log 8. -/
structure OutputPort where
  written : List Byte
  failIn : Option Nat
  deriving DecidableEq, Repr

/-- Where a step that waits for a character stands (R34): in GETC, or in IN after its prompt. -/
inductive InputWait where
  | getc
  | inp
  deriving DecidableEq, Repr

/-- Memory: the words that are not 0x0000, each with its address, addresses rising. One address names one 16-bit word
and there is no byte address (R45, R48), so a cell is a word (log 4). An unlisted address reads as 0x0000, the reset
value of every cell (R45). -/
abbrev Memory := List (Nat × Word)

/-- Every address of `m` is above `lo`, addresses rise strictly, lie in the address space, and no entry is 0x0000. -/
def Memory.wfFrom : Option Nat → Memory → Bool
  | _, [] => true
  | lo, (a, v) :: m =>
    (match lo with | none => true | some b => decide (b < a)) && decide (a < 65536) && (v != 0#16) && Memory.wfFrom (some a) m

/-- The canonical form of memory. -/
def Memory.wf (m : Memory) : Bool := Memory.wfFrom none m

/-- The state. `regs` to `status` are the tuple of R20; `wait` is the held step of R34; `cfg` are the parameters of R6;
`input` and `output` are the collaborators of R35. -/
structure State where
  /-- R0 to R7 (R21). -/
  regs : Vector Word 8
  /-- The program counter, a word address (R24). -/
  pc : Word
  /-- The condition flags (R25). -/
  cond : Cond
  /-- The 65536 words of storage (R45). -/
  mem : Memory
  /-- The keyboard data latch (R32). -/
  kbdrLatch : Word
  /-- The run status (R33). -/
  status : RunStatus
  /-- The service that is waiting for a character, if one is (R34). -/
  wait : Option InputWait
  /-- The implementation parameters (R6). -/
  cfg : Config
  /-- The input collaborator. -/
  input : InputPort
  /-- The output collaborator. -/
  output : OutputPort
  deriving DecidableEq, Repr

/-- Why `step` can answer no next state. No instruction of the table always ends in one. -/
inductive Fault where
  /-- Raised by `step` on a state whose run is over, with the terminal result: "no further step occurs" (R191, R96 "only
  while status == Running"). Safe: the model stops where the hardware has stopped (log 9). -/
  | runOver (result : RunStatus)
  /-- Raised by PUTS and PUTSP (and TRAP with their vectors) at address `a` when the string never ends: "the TRAP step
  does not end" (I14, stuck). Only an endless input that answers every poll of KBSR reaches it. Safe: the model stops
  where the hardware never finishes the step (log 10). -/
  | stringNeverEnds (a : Word)
  deriving DecidableEq, Repr

/-- Why an instruction is refused. No arm uses it: every instruction has its meaning. -/
inductive Refusal where
  /-- Raised by an arm of `exec` whose instruction has no meaning yet. Safe: nothing is claimed of it. -/
  | notModelled (mnemonic : String)
  deriving DecidableEq, Repr

/-- The machine right after reset (R40, R215): registers and memory zero, `pc` at 0x3000, flags ZRO (D3), latch 0 (D7),
running. The model's own fields: nothing waits, the parameters have their defaults (log 2, log 3), the input has ended
with nothing in it (log 5), nothing is written and no write will fail (log 8). -/
def State.reset : State where
  regs := Vector.replicate 8 0#16
  pc := pcStart
  cond := .zro
  mem := []
  kbdrLatch := 0#16
  status := .running
  wait := none
  cfg := Config.default
  input := { queue := [], tail := .ended, polls := [] }
  output := { written := [], failIn := none }

end Sys2Proof.Machine
end

