-- ==== Sys2Proof/Machine/Ops.lean ====
section
/-! DEFINITION. The shared operations: memory, registers, the collaborators' transactions, terminal conditions, trap
entry, strings and the fetch (spec 10_state.md, 20_memory.md, 44_trap.md, 60_exceptions.md). -/

namespace Sys2Proof.Machine

/-! Storage (R45). -/

/-- The word stored at an address; an unlisted address holds 0x0000 (R45). -/
def Memory.read : Memory → Nat → Word
  | [], _ => 0#16
  | (k, v) :: m, a => if k = a then v else Memory.read m a

/-- Store a word, keeping the canonical form: storing 0x0000 takes the entry away. -/
def Memory.write : Memory → Nat → Word → Memory
  | [], a, v => if v = 0#16 then [] else [(a, v)]
  | (k, w) :: m, a, v =>
    if a < k then (if v = 0#16 then (k, w) :: m else (a, v) :: (k, w) :: m)
    else if a = k then (if v = 0#16 then m else (a, v) :: m)
    else (k, w) :: Memory.write m a v

/-! One setter for each field; every change of the state goes through these. -/

def setPc (v : Word) (s : State) : State := { s with pc := v }
def setCond (c : Cond) (s : State) : State := { s with cond := c }
def setMem (m : Memory) (s : State) : State := { s with mem := m }
def setLatch (v : Word) (s : State) : State := { s with kbdrLatch := v }
def setStatus (c : RunStatus) (s : State) : State := { s with status := c }
def setWait (w : Option InputWait) (s : State) : State := { s with wait := w }
def setInput (p : InputPort) (s : State) : State := { s with input := p }
def setOutput (p : OutputPort) (s : State) : State := { s with output := p }

/-! General registers (R21): none is hardwired. -/

/-- `x[i]`. -/
def getReg (i : Reg) (s : State) : Word := s.regs[i.val]

/-- `x[i] <- v`. -/
def setReg (i : Reg) (v : Word) (s : State) : State := { s with regs := s.regs.set i.val v }

/-- The address of the instruction that executes: the fetch has moved `pc` one word past it (R96; log 11). -/
def instrAddr (s : State) : Word := s.pc - 1#16

/-! How a part of a step ends. -/

/-- The end of a part of a step that can meet a terminal condition or wait. -/
inductive Flow (α : Type) where
  /-- It is done, with a value. -/
  | ok (v : α) (s : State)
  /-- A terminal condition was raised; `s.status` is it, and nothing later in the rule runs (R10, R194). -/
  | ended (s : State)
  /-- The input collaborator has nothing to deliver yet: the step is held (R34). -/
  | held (s : State)
  /-- A string of the instruction at `a` that never ends (I14). -/
  | endless (a : Word)

/-- What comes next in the rule, run only if what came before is done (R10). -/
def Flow.andThen {α β : Type} (r : Flow α) (k : α → State → Flow β) : Flow β :=
  match r with
  | .ok v s => k v s
  | .ended s => .ended s
  | .held s => .held s
  | .endless a => .endless a

/-- The end of an instruction's rule. A held step keeps what it has done and notes where it waits (R34, log 7); a raised
terminal condition is the next state (log 9); only a string that never ends stops the machine. -/
def Flow.outcome (w : Option InputWait) (r : Flow Unit) : Host.Outcome State Fault Refusal :=
  match r with
  | .ok _ s => .next s
  | .ended s => .next s
  | .held s => .next (setWait w s)
  | .endless a => .fault (.stringNeverEnds a)

/-- `raise c`: the run ends with the terminal condition `c` (R10, R185, R191). It saves nothing and transfers control
nowhere (R195). -/
def raise (c : RunStatus) (s : State) : State := setStatus c s

/-! The input collaborator (R36, R37). -/

/-- Whether the next `InRead` would not wait: an answer is queued, or there is always one (D6, I7; log 6). On ended
input it is false, so a poll answers not ready (D15). -/
def inputReady (p : InputPort) : Bool :=
  !p.queue.isEmpty || (match p.tail with | .endless _ => true | .ended | .silent => false)

/-- `InPoll()`: the next of the poll answers, true only if the next `InRead` would not wait (R36). It takes no
character. -/
def inPoll (s : State) : Bool × State :=
  match s.input.polls with
  | [] => (inputReady s.input, s)
  | d :: ds => (d && inputReady s.input, setInput { s.input with polls := ds } s)

/-- `InRead()` by the instruction at `a`: the next character; `IoError` on a collaborator error or on ended input; held
while nothing has come (R34, R37, D15). -/
def inRead (a : Word) (s : State) : Flow Byte :=
  match s.input.queue with
  | .char c :: q => .ok c (setInput { s.input with queue := q } s)
  | .error :: q => .ended (raise (.ioError a .input) (setInput { s.input with queue := q } s))
  | [] =>
    match s.input.tail with
    | .ended => .ended (raise (.ioError a .input) s)
    | .silent => .held s
    | .endless c => .ok c s

/-! The output collaborator (R38). -/

/-- `OutWrite(b)` by the instruction at `a`: the byte is handed over after all earlier ones, or the run ends with
`IoError`. -/
def outWrite (a : Word) (b : Byte) (s : State) : Flow Unit :=
  match s.output.failIn with
  | some 0 => .ended (raise (.ioError a .output) s)
  | some (n + 1) => .ok () (setOutput { written := s.output.written ++ [b], failIn := some n } s)
  | none => .ok () (setOutput { written := s.output.written ++ [b], failIn := none } s)

/-- `for b in bs: OutWrite(b)`. -/
def outBytes (a : Word) : List Byte → State → Flow Unit
  | [], s => .ok () s
  | b :: bs, s => (outWrite a b s).andThen fun _ t => outBytes a bs t

/-! The read path and the write path (R50 to R60). -/

/-- Whether an address is one of the two device registers (R55). -/
def isDevice (c : Config) (addr : Word) : Bool := addr == c.kbsrAddr || addr == c.kbdrAddr

/-- A read of KBSR by the instruction at `a`: a poll, which takes the character into the latch (R57, D6). -/
def kbsrRead (a : Word) (s : State) : Flow Word :=
  if (inPoll s).1 then
    (inRead a (inPoll s).2).andThen fun c t => .ok 0x8000#16 (setLatch (c.setWidth 16) t)
  else .ok 0x0000#16 (inPoll s).2

/-- `MemRead(addr)` by the instruction at `a` (R50). -/
def memRead (a addr : Word) (s : State) : Flow Word :=
  if addr = s.cfg.kbsrAddr then kbsrRead a s
  else if addr = s.cfg.kbdrAddr then .ok s.kbdrLatch s
  else .ok (s.mem.read addr.toNat) s

/-- `MemWrite(addr, v)` (R53): a write of a device register is ignored (R59). -/
def memWrite (addr v : Word) (s : State) : State :=
  if isDevice s.cfg addr then s else setMem (s.mem.write addr.toNat v) s

/-! Taking a trap (R195), the one exception entry CORE has. There is no return beside it: a service ends inside the TRAP
step and execution goes on at `pc`, which it has not changed (R154, R196). -/

/-- `x[7] <- pc`: the link write of JSR, JSRR and TRAP; the flags stay (R22, R28). -/
def linkR7 (s : State) : State := setReg 7 s.pc s

/-- Trap entry: the return address goes to R7; no mode, mask, stack or `pc` changes (R195, R150). -/
def trapEntry (s : State) : State := linkR7 s

/-! Strings (R164, R170). -/

/-- PUTS writes the low byte of each word (R164, D12). -/
def putsBytes (w : Word) : List Byte := [w.extractLsb' 0 8]

/-- PUTSP writes the low byte, then the high byte if it is not 0 (R170, D13). -/
def putspBytes (w : Word) : List Byte :=
  if w.extractLsb' 8 8 = 0#8 then [w.extractLsb' 0 8] else [w.extractLsb' 0 8, w.extractLsb' 8 8]

/-- The loop of R164 and R170 from pointer `p`, for at most `n` words: read through the read path, end at a whole zero
word, write the word's bytes, go on at the next address modulo 2^16 (D11). -/
def stringLoop (emit : Word → List Byte) (a : Word) : Nat → Word → State → Flow Unit
  | 0, _, _ => .endless a
  | n + 1, p, s =>
    (memRead a p s).andThen fun w t =>
      if w = 0#16 then .ok () t else (outBytes a (emit w) t).andThen fun _ u => stringLoop emit a n (p + 1#16) u

/-- How many words a string is followed for: each pass over the address space reads KBSR once, and each such read that
does not end the string uses up a queued answer and a poll answer; after them every pass is the same but for the output,
which fails after `failIn` bytes. So a string not ended by then never ends (log 10). -/
def stringBound (s : State) : Nat :=
  65536 * (s.input.queue.length + s.input.polls.length + 3) + s.output.failIn.getD 0

/-- The string at the address in R0, written word by word (R164, R170). -/
def writeString (emit : Word → List Byte) (s : State) : Flow Unit :=
  stringLoop emit (instrAddr s) (stringBound s) (getReg 0 s) s

/-! The fetch (R96). -/

/-- `a = pc; ir = MemRead(a); pc <- pc + 1`. -/
def fetch (s : State) : Flow Word :=
  (memRead s.pc s.pc s).andThen fun ir t => .ok ir (setPc (t.pc + 1#16) t)

/-- Where a word must stand to be what the next fetch reads: `pc`, unless it is a device register, which holds no
word; then the next address that is none. -/
def fetchSlot (s : State) : Word :=
  if isDevice s.cfg s.pc then
    if isDevice s.cfg (s.pc + 1#16) then s.pc + 2#16 else s.pc + 1#16
  else s.pc

/-! What the collaborators can do between two steps (R34, R35; log 5). -/

/-- The input collaborator comes by one more answer. -/
def inputArrives (i : InItem) (s : State) : State := setInput { s.input with queue := s.input.queue ++ [i] } s

/-- The input collaborator's input ends after what is queued. -/
def inputEnds (s : State) : State := setInput { s.input with tail := .ended } s

end Sys2Proof.Machine
end

