-- ==== Sys2Proof/Machine/Flags.lean ====
section
/-! DEFINITION. The condition flags (spec 10_state.md R25 to R29; 30_encoding.md R83). -/

namespace Sys2Proof.Machine

/-- The one-hot value of the flags (R25; the assignment is D2, log 1). -/
def Cond.bits : Cond → BitVec 3
  | .pos => 0b001
  | .zro => 0b010
  | .neg => 0b100

/-- The flags of a value: sign bit first, then zero (R27). -/
def condOf (v : Word) : Cond := if v.getLsbD 15 then .neg else if v = 0#16 then .zro else .pos

/-- `update_flags(i)` (R27). -/
def updateFlags (i : Reg) (s : State) : State := setCond (condOf (getReg i s)) s

/-- A destination register is written, then the flags follow it: "exactly once, after the write, as its final side
effect" (R27). -/
def writeDest (i : Reg) (v : Word) (s : State) : State := updateFlags i (setReg i v s)

/-- The mask `ir[11:9]` of a BR (R83). -/
def brMask (n z p : Bool) : BitVec 3 := BitVec.ofBool n ++ BitVec.ofBool z ++ BitVec.ofBool p

/-- The branch test: a nonzero intersection, not equality with 1 (R105, R106). -/
def branchTaken (n z p : Bool) (s : State) : Bool := (s.cond.bits &&& brMask n z p) != 0

end Sys2Proof.Machine
end

