-- ==== Sys2Proof/Machine/Operands.lean ====
section
/-! DEFINITION. Operands and effective addresses (spec 00_scope.md R9; 30_encoding.md R79, R82; 42_load_store.md R129). -/

namespace Sys2Proof.Machine

/-- `sext_N`: two's-complement sign extension to a word (R9, R79). -/
def sext {n : Nat} (v : BitVec n) : Word := v.signExtend 16

/-- The PC-relative address `pc + sext_9(pc_offset9)`, with `pc` already moved past the instruction (R129, R24). -/
def pcRelative (off : BitVec 9) (s : State) : Word := s.pc + sext off

/-- The base-plus-offset address `x[base_r] + sext_6(offset6)` (R129). -/
def baseOffset (b : Reg) (off : BitVec 6) (s : State) : Word := getReg b s + sext off

/-- The pointer read of LDI and STI: `MemRead(pc + sext_9(pc_offset9))` (R121, R125). -/
def readPointer (off : BitVec 9) (s : State) : Flow Word := memRead (instrAddr s) (pcRelative off s) s

end Sys2Proof.Machine
end

