-- ==== Sys2Proof/Machine/Branch.lean ====
section
/-! DEFINITION. BR (spec 40_branch.md). -/

namespace Sys2Proof.Machine

/-- BR (R105): "If `(condition_flags & cond) != 0`, PC += sign_extend(pc_offset9, 9)." -/
def execBr (n z p : Bool) (off : BitVec 9) (s : State) : Host.Outcome State Fault Refusal :=
  .next (if branchTaken n z p s then setPc (pcRelative off s) s else s)

end Sys2Proof.Machine
end

