-- ==== Sys2Proof/Machine/Jump.lean ====
section
/-! DEFINITION. JMP, JSR, JSRR (spec 43_jump.md). -/

namespace Sys2Proof.Machine

/-- JMP (R140). -/
def execJmp (b : Reg) (s : State) : Host.Outcome State Fault Refusal := .next (setPc (getReg b s) s)

/-- JSR (R141): the link, then `pc + sext_11(pc_offset11)`. -/
def execJsr (off : BitVec 11) (s : State) : Host.Outcome State Fault Refusal :=
  .next (setPc (s.pc + sext off) (linkR7 s))

/-- JSRR (R142): the link first, then the base is read, so JSRR R7 goes on at the next instruction (D10, log 13). -/
def execJsrr (b : Reg) (s : State) : Host.Outcome State Fault Refusal :=
  .next (setPc (getReg b (linkR7 s)) (linkR7 s))

end Sys2Proof.Machine
end

