-- ==== Sys2Proof/Machine/LoadStore.lean ====
section
/-! DEFINITION. LD, LDI, LDR, LEA, ST, STI, STR (spec 42_load_store.md). Every access goes through `memRead` and
`memWrite`, so every one of them can meet a device register (R60). -/

namespace Sys2Proof.Machine

/-- `x[dr] <- MemRead(addr); update_flags(dr)`: the end LD, LDI and LDR share (R120 to R122). -/
def loadDest (dr : Reg) (addr : Word) (s : State) : Flow Unit :=
  (memRead (instrAddr s) addr s).andThen fun v t => .ok () (writeDest dr v t)

/-- LD (R120). -/
def execLd (dr : Reg) (off : BitVec 9) (s : State) : Host.Outcome State Fault Refusal :=
  (loadDest dr (pcRelative off s) s).outcome none

/-- LDI (R121): two reads, in this order. -/
def execLdi (dr : Reg) (off : BitVec 9) (s : State) : Host.Outcome State Fault Refusal :=
  ((readPointer off s).andThen fun ptr t => loadDest dr ptr t).outcome none

/-- LDR (R122): the base is read before the destination is written. -/
def execLdr (dr b : Reg) (off : BitVec 6) (s : State) : Host.Outcome State Fault Refusal :=
  (loadDest dr (baseOffset b off s) s).outcome none

/-- LEA (R123): no memory access; the flags follow the address. -/
def execLea (dr : Reg) (off : BitVec 9) (s : State) : Host.Outcome State Fault Refusal :=
  .next (writeDest dr (pcRelative off s) s)

/-- ST (R124). -/
def execSt (sr : Reg) (off : BitVec 9) (s : State) : Host.Outcome State Fault Refusal :=
  .next (memWrite (pcRelative off s) (getReg sr s) s)

/-- STI (R125): the pointer is read through the read path, then the register is stored there. -/
def execSti (sr : Reg) (off : BitVec 9) (s : State) : Host.Outcome State Fault Refusal :=
  ((readPointer off s).andThen fun ptr t => .ok () (memWrite ptr (getReg sr t) t)).outcome none

/-- STR (R126). -/
def execStr (sr b : Reg) (off : BitVec 6) (s : State) : Host.Outcome State Fault Refusal :=
  .next (memWrite (baseOffset b off s) (getReg sr s) s)

end Sys2Proof.Machine
end

