-- ==== Sys2Proof/Machine/Operate.lean ====
section
/-! DEFINITION. ADD, AND, NOT (spec 41_operate.md). The sources are read before the destination is written. -/

namespace Sys2Proof.Machine

/-- ADD, register form (R110): addition modulo 2^16. -/
def execAddReg (dr sr1 sr2 : Reg) (s : State) : Host.Outcome State Fault Refusal :=
  .next (writeDest dr (getReg sr1 s + getReg sr2 s) s)

/-- ADD, immediate form (R110, R82). -/
def execAddImm (dr sr1 : Reg) (imm : BitVec 5) (s : State) : Host.Outcome State Fault Refusal :=
  .next (writeDest dr (getReg sr1 s + sext imm) s)

/-- AND, register form (R111). -/
def execAndReg (dr sr1 sr2 : Reg) (s : State) : Host.Outcome State Fault Refusal :=
  .next (writeDest dr (getReg sr1 s &&& getReg sr2 s) s)

/-- AND, immediate form (R111, R82). -/
def execAndImm (dr sr1 : Reg) (imm : BitVec 5) (s : State) : Host.Outcome State Fault Refusal :=
  .next (writeDest dr (getReg sr1 s &&& sext imm) s)

/-- NOT (R112). -/
def execNot (dr sr : Reg) (s : State) : Host.Outcome State Fault Refusal :=
  .next (writeDest dr (~~~ getReg sr s) s)

end Sys2Proof.Machine
end

