-- ==== Sys2Proof/Machine/Reserved.lean ====
section
/-! DEFINITION. RES and RTI (spec 45_reserved.md): "decoding one signals an invalid-opcode failure." Neither writes
anything but the run status (R192). -/

namespace Sys2Proof.Machine

/-- RES (R180): `raise InvalidOpcode(a, ir)`, with the whole word `ir`. -/
def execRes (unused : BitVec 12) (s : State) : Host.Outcome State Fault Refusal :=
  .next (raise (.invalidOpcode (instrAddr s) (0xD#4 ++ unused)) s)

/-- RTI (R181): as RES; the LC-3's return from interrupt does not exist in CORE (R196, I12). -/
def execRti (unused : BitVec 12) (s : State) : Host.Outcome State Fault Refusal :=
  .next (raise (.invalidOpcode (instrAddr s) (0x8#4 ++ unused)) s)

end Sys2Proof.Machine
end

