-- ==== Sys2Proof/Machine/Trap.lean ====
section
/-! DEFINITION. TRAP and the six services (spec 44_trap.md). Each of GETC to HALT is the TRAP instruction with its
vector, so it begins with trap entry; the service then runs inside the same step (R152). -/

namespace Sys2Proof.Machine

/-- `c = InRead(); x[0] <- zext_16(c); update_flags(0)` (R160). -/
def getcBody (s : State) : Flow Unit :=
  (inRead (instrAddr s) s).andThen fun c t => .ok () (writeDest 0 (c.setWidth 16) t)

/-- IN after its prompt: read, echo, then write R0 and the flags, in that order (R166, D26). -/
def inBody (s : State) : Flow Unit :=
  (inRead (instrAddr s) s).andThen fun c t =>
    (outWrite (instrAddr t) c t).andThen fun _ u => .ok () (writeDest 0 (c.setWidth 16) u)

/-- `for b in HALT_NOTICE: OutWrite(b)`, then `status <- Halted(a)` (R172). An error in the notice wins (D22). -/
def haltBody (s : State) : Flow Unit :=
  (outBytes (instrAddr s) s.cfg.haltNotice s).andThen fun _ t => .ok () (raise (.halted (instrAddr t)) t)

/-- The service GETC (R160). -/
def serviceGetc (s : State) : Host.Outcome State Fault Refusal := (getcBody (setWait none s)).outcome (some .getc)

/-- The service OUT (R162): the low byte of R0. -/
def serviceOut (s : State) : Host.Outcome State Fault Refusal :=
  (outWrite (instrAddr s) ((getReg 0 s).extractLsb' 0 8) s).outcome none

/-- The service PUTS (R164). -/
def servicePuts (s : State) : Host.Outcome State Fault Refusal := (writeString putsBytes s).outcome none

/-- What of IN is left while it waits (R166). -/
def resumeIn (s : State) : Host.Outcome State Fault Refusal := (inBody (setWait none s)).outcome (some .inp)

/-- The service IN (R166): the prompt, then the rest. -/
def serviceIn (s : State) : Host.Outcome State Fault Refusal :=
  ((outBytes (instrAddr s) s.cfg.inPrompt (setWait none s)).andThen fun _ t => inBody t).outcome (some .inp)

/-- The service PUTSP (R170). -/
def servicePutsp (s : State) : Host.Outcome State Fault Refusal := (writeString putspBytes s).outcome none

/-- The service HALT (R172). -/
def serviceHalt (s : State) : Host.Outcome State Fault Refusal := (haltBody s).outcome none

/-- A vector no service has: the run ends with `InvalidTrap` (R151, R188). -/
def unknownVector (v : BitVec 8) (s : State) : Host.Outcome State Fault Refusal :=
  .next (raise (.invalidTrap (instrAddr s) v) s)

/-- The trap dispatcher (R150): the service of the vector. -/
def dispatchVector (v : BitVec 8) (s : State) : Host.Outcome State Fault Refusal :=
  match v with
  | 0x20#8 => serviceGetc s
  | 0x21#8 => serviceOut s
  | 0x22#8 => servicePuts s
  | 0x23#8 => serviceIn s
  | 0x24#8 => servicePutsp s
  | 0x25#8 => serviceHalt s
  | _ => unknownVector v s

/-- TRAP (R150): "R7 = PC; dispatch to Trap Dispatcher with the 8-bit vector." -/
def execTrap (v : BitVec 8) (s : State) : Host.Outcome State Fault Refusal := dispatchVector v (trapEntry s)

/-- GETC, TRAP x20 (R160). -/
def execGetc (s : State) : Host.Outcome State Fault Refusal := serviceGetc (trapEntry s)

/-- OUT, TRAP x21 (R162). -/
def execOut (s : State) : Host.Outcome State Fault Refusal := serviceOut (trapEntry s)

/-- PUTS, TRAP x22 (R164). -/
def execPuts (s : State) : Host.Outcome State Fault Refusal := servicePuts (trapEntry s)

/-- IN, TRAP x23 (R166). -/
def execIn (s : State) : Host.Outcome State Fault Refusal := serviceIn (trapEntry s)

/-- PUTSP, TRAP x24 (R170). -/
def execPutsp (s : State) : Host.Outcome State Fault Refusal := servicePutsp (trapEntry s)

/-- HALT, TRAP x25 (R172). -/
def execHalt (s : State) : Host.Outcome State Fault Refusal := serviceHalt (trapEntry s)

/-- A held step goes on where it stands: the input collaborator is asked again (R34, R209). -/
def resumeWait (w : InputWait) (s : State) : Host.Outcome State Fault Refusal :=
  match w with
  | .getc => serviceGetc s
  | .inp => resumeIn s

end Sys2Proof.Machine
end

