-- ==== Sys2Proof/Machine/Step.lean ====
section
/-! DEFINITION. The step of CORE (spec 30_encoding.md R96): fetch, move `pc`, decode, execute. -/

namespace Sys2Proof.Machine

/-- One step. "only while status == Running": when the run is over there is no step (R191, log 9). A held step goes on
where it waits (R34, log 7). Otherwise a word is fetched and its instruction executed; a fetch that fails ends the run
before anything is decoded (R194). -/
def step (s : State) : Host.Outcome State Fault Refusal :=
  match s.status with
  | .running =>
    match s.wait with
    | some w => resumeWait w s
    | none =>
      match fetch s with
      | .ok ir t => exec (decode ir) t
      | .ended t => .next t
      | .held t => .next t
      | .endless a => .fault (.stringNeverEnds a)
  | c => .fault (.runOver c)

/-- `s` with a word placed where the next step fetches, and able to take that step: running, nothing waiting, `pc` at an
address that holds a word (it moves only if it is at a device register). Stands for the image load (log 16). -/
def State.withFetchWord (s : State) (_nbits w : Nat) : State :=
  { s with
    pc := fetchSlot s
    mem := s.mem.write (fetchSlot s).toNat (BitVec.ofNat 16 w)
    status := .running
    wait := none }

end Sys2Proof.Machine
end

