-- ==== Sys2Proof/Machine/Image.lean ====
section
/-! DEFINITION. The image and its load (spec 20_memory.md R63 to R68; 70_reset_and_hazards.md R215). The load happens
once, before the first step, so it is a function on the reset state and no part of `step` (log 16). -/

namespace Sys2Proof.Machine

/-- The byte stream the image collaborator supplies (R63): its bytes, and whether reading it failed after them instead
of reaching a clean end (R65). -/
structure ImageStream where
  bytes : List Byte
  failed : Bool
  deriving DecidableEq, Repr

/-- The whole words of a stream, "read big-endian, high byte first" (R64), and whether a byte is left over. -/
def imageWords : List Byte → List Word × Bool
  | [] => ([], false)
  | [_] => ([], true)
  | hi :: lo :: rest => ((hi ++ lo : BitVec 16) :: (imageWords rest).1, (imageWords rest).2)

/-- Words stored contiguously from an address, each by `MemWrite` (R66). -/
def placeWords : Word → List Word → State → State
  | _, [], s => s
  | addr, w :: ws, s => placeWords (addr + 1#16) ws (memWrite addr w s)

/-- What the load comes to: the origin and the contents, or a load error (R65, R67). -/
def imageContents (img : ImageStream) : Option (Word × List Word) :=
  match imageWords img.bytes with
  | (origin :: ws, false) =>
    if img.failed || decide (0x10000 < origin.toNat + ws.length) then none else some (origin, ws)
  | _ => none

/-- What a load error may have placed before it was detected: a first part of the contents, none of it wrapped to
address 0x0000 (R67); how long a part is a free value (log 15). -/
def placedBeforeError (img : ImageStream) (s : State) : State :=
  match (imageWords img.bytes).1 with
  | [] => s
  | origin :: ws =>
    placeWords origin (ws.take (min (Config.wordsPlacedOnLoadError img.bytes) (0x10000 - origin.toNat))) s

/-- The image load (R66, R68): the words are placed and the run is `Running`, or it ends with `LoadError`. `pc` stays. -/
def loadImage (img : ImageStream) (s : State) : State :=
  match imageContents img with
  | some (origin, ws) => setStatus .running (placeWords origin ws s)
  | none => raise .loadError (placedBeforeError img s)

/-- Construction and one image load (R215), with the parameters and collaborators of a run. -/
def boot (cfg : Config) (input : InputPort) (output : OutputPort) (img : ImageStream) : State :=
  loadImage img { State.reset with cfg := cfg, input := input, output := output }

end Sys2Proof.Machine
end

