-- ==== Sys2Proof/Safety.lean ====
section
/-! DEFINITION. The terms claims are stated in: what holds in every state a run reaches, what one step and a run are,
when a run is over and with what result, and the parts of a frame. -/

namespace Sys2Proof.Machine

/-- What the state of a run always satisfies: memory in its canonical form; nothing stored under a device register
("ignored, not stored", R59); the latch's high byte 0 (R32); distinct device addresses (R56); and only a running machine
waits (R34). -/
structure State.Inv (s : State) : Prop where
  memWf : s.mem.wf = true
  kbsrNotStored : s.mem.read s.cfg.kbsrAddr.toNat = 0#16
  kbdrNotStored : s.mem.read s.cfg.kbdrAddr.toNat = 0#16
  latchHigh : s.kbdrLatch.extractLsb' 8 8 = 0#8
  devices : s.cfg.distinctDevices = true
  waiting : s.wait ≠ none → s.status = .running

/-- `s` steps to `t`. -/
def Steps (s t : State) : Prop := step s = .next t

/-- A run from `s` comes to `t`. -/
def Reaches (s t : State) : Prop := Relation.ReflTransGen Steps s t

/-- R210: "A run is over exactly when `status` is terminal." -/
def State.over (s : State) : Bool := s.status != .running

/-- R210: the result of a run that is over: the terminal condition, the final state and the bytes written. -/
def State.result (s : State) : Option (RunStatus × State × List Byte) :=
  if s.over then some (s.status, s, s.output.written) else none

/-- A safe run: no state it reaches ends in one of the four fatal conditions (R185). -/
def SafeFrom (s : State) : Prop := ∀ t, Reaches s t → t.status = .running ∨ ∃ a, t.status = .halted a

/-! The parts of a frame. -/

/-- The word an address holds in plain storage (R45). -/
def wordAt (addr : Word) (s : State) : Word := s.mem.read addr.toNat

/-- Every general register outside `D` has the value it had. -/
def KeepsRegs (D : List Reg) (s t : State) : Prop := ∀ r, r ∉ D → getReg r t = getReg r s

/-- Every word of memory outside `A` has the value it had. -/
def KeepsWords (A : List Word) (s t : State) : Prop := ∀ addr, addr ∉ A → wordAt addr t = wordAt addr s

/-- The keyboard side and the output side have not moved. -/
def KeepsIo (s t : State) : Prop := t.kbdrLatch = s.kbdrLatch ∧ t.input = s.input ∧ t.output = s.output

/-- The parameters, the run status and the wait are as they were. -/
def KeepsRun (s t : State) : Prop := t.cfg = s.cfg ∧ t.status = s.status ∧ t.wait = s.wait

/-- All of memory, the collaborators, the latch, the parameters, the status and the wait are as they were. -/
def KeepsOutside (s t : State) : Prop := KeepsWords [] s t ∧ KeepsIo s t ∧ KeepsRun s t

/-- R27, read as numbers: NEG from 0x8000 up, ZRO for 0, POS between. -/
def FlagsMatch (v : Word) (c : Cond) : Prop :=
  (0x8000 ≤ v.toNat → c = .neg) ∧ (v.toNat = 0 → c = .zro) ∧ (0 < v.toNat → v.toNat < 0x8000 → c = .pos)

/-- The destination field of an instruction, if its opcode defines one: `dr` of R77. -/
def destField : Instr → Option Reg
  | .addReg dr _ _ | .addImm dr _ _ | .andReg dr _ _ | .andImm dr _ _ | .not dr _ | .ld dr _ | .ldi dr _ | .ldr dr _ _
  | .lea dr _ => some dr
  | .jsr _ | .jsrr _ | .out | .puts | .putsp | .halt | .getc | .inp | .trap _ | .br _ _ _ _ | .st _ _ | .sti _ _
  | .str _ _ _ | .jmp _ | .res _ | .rti _ => none

/-- The registers an instruction may write (R23): its destination, and the links and results with an implicit register
(R22). -/
def destRegs : Instr → List Reg
  | .addReg dr _ _ | .addImm dr _ _ | .andReg dr _ _ | .andImm dr _ _ | .not dr _ | .ld dr _ | .ldi dr _ | .ldr dr _ _
  | .lea dr _ => [dr]
  | .jsr _ | .jsrr _ | .out | .puts | .putsp | .halt => [7]
  | .getc | .inp | .trap _ => [0, 7]
  | .br _ _ _ _ | .st _ _ | .sti _ _ | .str _ _ _ | .jmp _ | .res _ | .rti _ => []

/-! What the collaborators are about to do, as data. -/

/-- The next `InRead` delivers `c` and leaves the input `q`. -/
def Supplies (p : InputPort) (c : Byte) (q : InputPort) : Prop :=
  (∃ rest, p.queue = .char c :: rest ∧ q = { p with queue := rest }) ∨
  (p.queue = [] ∧ p.tail = .endless c ∧ q = p)

/-- The next `InRead` fails: the collaborator reports an error, or its input has ended (R37). -/
def Fails (p : InputPort) : Prop :=
  (∃ rest, p.queue = .error :: rest) ∨ (p.queue = [] ∧ p.tail = .ended)

/-- The next `InRead` waits: nothing has come and nothing says that nothing will (R34). -/
def Silent (p : InputPort) : Prop := p.queue = [] ∧ p.tail = .silent

/-- The input is not one that always has one more character. -/
def FiniteInput (p : InputPort) : Prop := ∀ c, p.tail ≠ .endless c

/-- The next `n` bytes are taken without an error. -/
def Takes (o : OutputPort) (n : Nat) : Prop := ∀ k, o.failIn = some k → n ≤ k

/-- The output collaborator after it has taken `bs`. -/
def afterBytes (o : OutputPort) (bs : List Byte) : OutputPort :=
  { written := o.written ++ bs, failIn := o.failIn.map (· - bs.length) }

/-- Memory holds `ws` at `p` and the addresses after it, modulo 2^16, all of it in plain storage. -/
def HoldsAt (p : Word) (ws : List Word) (s : State) : Prop :=
  ∀ k, (h : k < ws.length) →
    isDevice s.cfg (p + BitVec.ofNat 16 k) = false ∧ wordAt (p + BitVec.ofNat 16 k) s = ws[k]

/-- The read path gives the instruction at `a` the words `ws`, one from `p` and one from each address after it, modulo
2^16, device registers among them; `t` is the state these reads come to (R50, R51). -/
def ReadsFrom (a : Word) : Word → List Word → State → State → Prop
  | _, [], s, t => t = s
  | p, w :: ws, s, t => ∃ m, memRead a p s = .ok w m ∧ ReadsFrom a (p + 1#16) ws m t

/-- A string service and the bytes it writes for one word: PUTS (R164) or PUTSP (R170). -/
def StringService (i : Instr) (emit : Word → List Byte) : Prop :=
  (i = .puts ∧ emit = putsBytes) ∨ (i = .putsp ∧ emit = putspBytes)

/-- The bytes of an image: the origin, then the contents, each word high byte first (R63, R64). -/
def imageBytes (origin : Word) (ws : List Word) : List Byte :=
  (origin :: ws).flatMap fun w => [w.extractLsb' 8 8, w.extractLsb' 0 8]

end Sys2Proof.Machine
end

