-- ==== Sys2Proof/Certificates/Slice0/Obligations.lean ====
section
/-! DEFINITION. The statements for the provers. In every statement about `exec`, `s` is the state after the fetch, so
`s.pc` is the address of the next instruction and `s.pc - 1` that of this one (spec 30_encoding.md R96). -/

open Sys2Proof Sys2Proof.Machine

/-! Encoding (30_encoding.md). -/

/-- Decoding the word of a well-formed instruction gives it back, for every value of every field. -/
def Obligations.DecodeEncodeRoundTrip : Prop := ∀ i : Instr, i.wellFormed = true → decode (encode i) = i

/-- R85: every word is exactly one well-formed instruction, and that instruction's own word agrees with it on every bit
the instruction uses (derived from R76, R84; the opcode values are the spec's choice D1, log 1). -/
def Obligations.DecodeKeepsEveryUsedBit : Prop :=
  ∀ ir : Word, (decode ir).wellFormed = true ∧
    encode (decode ir) &&& usedBits (decode ir) = ir &&& usedBits (decode ir)

/-- R86 (the spec's choice D8): words that differ only in bits the instruction does not use decode alike. -/
def Obligations.DecodeIgnoresUnusedBits : Prop :=
  ∀ ir ir' : Word, ir &&& usedBits (decode ir) = ir' &&& usedBits (decode ir) → decode ir' = decode ir

/-- Words of the spec's worked examples decode to the instructions they stand for (a sanity statement). -/
def Obligations.SpecWordsDecode : Prop :=
  decode 0x0A02 = .br true false true 2 ∧ decode 0x1042 = .addReg 0 1 2 ∧ decode 0x1030 = .addImm 0 0 0x10 ∧
  decode 0x5D05 = .andReg 6 4 5 ∧ decode 0x923F = .not 1 0 ∧ decode 0xA605 = .ldi 3 5 ∧
  decode 0xEBFE = .lea 5 0x1FE ∧ decode 0x729F = .str 1 2 0x1F ∧ decode 0x4810 = .jsr 0x10 ∧
  decode 0x4080 = .jsrr 2 ∧ decode 0xC1C0 = .jmp 7 ∧ decode 0x2402 = .ld 2 2 ∧ decode 0x6040 = .ldr 0 1 0 ∧
  decode 0x3C10 = .st 6 0x10 ∧ decode 0xB003 = .sti 0 3 ∧ decode 0x5030 = .andImm 0 0 0x10 ∧
  decode 0xDFFF = .res 0xFFF ∧ decode 0x8000 = .rti 0 ∧ decode 0xF026 = .trap 0x26 ∧ decode 0xF020 = .getc ∧
  decode 0xF021 = .out ∧ decode 0xF022 = .puts ∧ decode 0xF023 = .inp ∧ decode 0xF024 = .putsp ∧ decode 0xFF25 = .halt

/-- R9: `sext_N` is `v` if bit N-1 is 0, else `v` with all ones above it, for each of the four widths; `zext_16` (the
model writes it `setWidth 16`) keeps the value, so the bits above the field are 0. -/
def Obligations.SignExtensionRule : Prop :=
  (∀ v : BitVec 5, sext v = if v.getLsbD 4 then v.setWidth 16 ||| (0xFFFF#16 <<< 5) else v.setWidth 16) ∧
  (∀ v : BitVec 6, sext v = if v.getLsbD 5 then v.setWidth 16 ||| (0xFFFF#16 <<< 6) else v.setWidth 16) ∧
  (∀ v : BitVec 9, sext v = if v.getLsbD 8 then v.setWidth 16 ||| (0xFFFF#16 <<< 9) else v.setWidth 16) ∧
  (∀ v : BitVec 11, sext v = if v.getLsbD 10 then v.setWidth 16 ||| (0xFFFF#16 <<< 11) else v.setWidth 16) ∧
  (∀ n < 16, ∀ v : BitVec n, (v.setWidth 16).toNat = v.toNat)

/-! Reset and the image (10_state.md R40; 20_memory.md; 70_reset_and_hazards.md). -/

/-- R40. The flags' and the latch's values are the spec's choices D3 and D7. -/
def Obligations.ResetState : Prop :=
  (∀ r, getReg r State.reset = 0) ∧ State.reset.pc = 0x3000 ∧ (∀ addr, wordAt addr State.reset = 0) ∧
  State.reset.cond = .zro ∧ State.reset.kbdrLatch = 0 ∧ State.reset.status = .running

/-- R63, R64: the first big-endian word is the origin, every later one is stored contiguously from there; what the image
does not cover is 0x0000, and the run starts at 0x3000 with the reset registers, whatever the origin. -/
def Obligations.ImageIsPlacedAtItsOrigin : Prop :=
  ∀ (cfg : Config) (inp : InputPort) (out : OutputPort) (origin : Word) (ws : List Word),
    origin.toNat + ws.length ≤ 0x10000 →
    let t := boot cfg inp out ⟨imageBytes origin ws, false⟩
    t.status = .running ∧ t.pc = 0x3000 ∧ (∀ r, getReg r t = 0) ∧
    (∀ k, (h : k < ws.length) → isDevice cfg (origin + BitVec.ofNat 16 k) = false →
      wordAt (origin + BitVec.ofNat 16 k) t = ws[k]) ∧
    (∀ addr : Word, (addr.toNat < origin.toNat ∨ origin.toNat + ws.length ≤ addr.toNat) → wordAt addr t = 0)

/-- R66, the words aimed at a device address (the spec's choice D21): they are dropped, and nothing is stored there. -/
def Obligations.ImageWordsAtDevicesAreDropped : Prop :=
  ∀ (cfg : Config) (inp : InputPort) (out : OutputPort) (img : ImageStream) (addr : Word),
    isDevice cfg addr = true → wordAt addr (boot cfg inp out img) = 0

/-- R65, R67, R68 (R67 and the short stream are the spec's choice D21): a stream that cannot be read, ends in the middle
of a word, has no origin, or runs past the top of memory is a load error, and nothing is executed. -/
def Obligations.BadImageIsLoadError : Prop :=
  ∀ (cfg : Config) (inp : InputPort) (out : OutputPort) (img : ImageStream),
    (img.failed = true ∨ img.bytes.length % 2 = 1 ∨ img.bytes.length < 2 ∨
      ∃ origin ws, img.bytes = imageBytes origin ws ∧ 0x10000 < origin.toNat + ws.length) →
    (boot cfg inp out img).status = .loadError ∧ (boot cfg inp out img).pc = 0x3000 ∧
    step (boot cfg inp out img) = .fault (.runOver .loadError)

/-! The flags and BR. -/

/-- R27: the three cases of `update_flags`, and that it writes nothing but the flags; and every opcode with a destination
field calls it exactly once, on that register, after the write, as its final side effect. -/
def Obligations.UpdateFlagsRule : Prop :=
  (∀ (i : Reg) (s : State), FlagsMatch (getReg i s) (updateFlags i s).cond ∧
    KeepsRegs [] s (updateFlags i s) ∧ (updateFlags i s).pc = s.pc ∧ KeepsOutside s (updateFlags i s)) ∧
  (∀ (i : Instr) (dr : Reg) (s t : State), destField i = some dr → s.status = .running → exec i s = .next t →
    t.status = .running → ∃ v m, t = updateFlags dr (setReg dr v m) ∧ m.cond = s.cond ∧ m.regs = s.regs)

/-- R105, R106: the branch is taken exactly when the intersection is not zero, and nothing but `pc` moves. -/
def Obligations.BrBranchesOnNonzeroIntersection : Prop :=
  ∀ (n z p : Bool) (off : BitVec 9) (s : State), ∃ t, exec (.br n z p off) s = .next t ∧
    t.pc = (if s.cond.bits &&& (BitVec.ofBool n ++ BitVec.ofBool z ++ BitVec.ofBool p) ≠ 0#3
      then s.pc + off.signExtend 16 else s.pc) ∧
    t.cond = s.cond ∧ KeepsRegs [] s t ∧ KeepsOutside s t

/-- R83, R25 (the assignment is the spec's choice D2, log 1): n answers to NEG, z to ZRO, p to POS; so the mask 000
never branches and 111 always does. -/
def Obligations.BrMaskBitsSelectFlags : Prop :=
  ∀ (n z p : Bool) (off : BitVec 9) (s : State), ∃ t, exec (.br n z p off) s = .next t ∧
    t.pc = if (match s.cond with | .neg => n | .zro => z | .pos => p) then s.pc + off.signExtend 16 else s.pc

/-! Operate (41_operate.md). -/

/-- R110, both forms: the sum modulo 2^16 of the values before the write; the flags of the sum; nothing else. -/
def Obligations.AddResultAndFrame : Prop :=
  (∀ (dr sr1 sr2 : Reg) (s : State), ∃ t, exec (.addReg dr sr1 sr2) s = .next t ∧
    getReg dr t = getReg sr1 s + getReg sr2 s ∧ FlagsMatch (getReg dr t) t.cond ∧
    KeepsRegs [dr] s t ∧ t.pc = s.pc ∧ KeepsOutside s t) ∧
  (∀ (dr sr1 : Reg) (imm : BitVec 5) (s : State), ∃ t, exec (.addImm dr sr1 imm) s = .next t ∧
    getReg dr t = getReg sr1 s + imm.signExtend 16 ∧ FlagsMatch (getReg dr t) t.cond ∧
    KeepsRegs [dr] s t ∧ t.pc = s.pc ∧ KeepsOutside s t)

/-- R111, both forms. -/
def Obligations.AndResultAndFrame : Prop :=
  (∀ (dr sr1 sr2 : Reg) (s : State), ∃ t, exec (.andReg dr sr1 sr2) s = .next t ∧
    getReg dr t = getReg sr1 s &&& getReg sr2 s ∧ FlagsMatch (getReg dr t) t.cond ∧
    KeepsRegs [dr] s t ∧ t.pc = s.pc ∧ KeepsOutside s t) ∧
  (∀ (dr sr1 : Reg) (imm : BitVec 5) (s : State), ∃ t, exec (.andImm dr sr1 imm) s = .next t ∧
    getReg dr t = getReg sr1 s &&& imm.signExtend 16 ∧ FlagsMatch (getReg dr t) t.cond ∧
    KeepsRegs [dr] s t ∧ t.pc = s.pc ∧ KeepsOutside s t)

/-- R112: "16-bit complement, 0xFFFF - value". -/
def Obligations.NotResultAndFrame : Prop :=
  ∀ (dr sr : Reg) (s : State), ∃ t, exec (.not dr sr) s = .next t ∧
    getReg dr t = 0xFFFF#16 - getReg sr s ∧ FlagsMatch (getReg dr t) t.cond ∧
    KeepsRegs [dr] s t ∧ t.pc = s.pc ∧ KeepsOutside s t

/-! The read path and the write path (20_memory.md). -/

/-- R57 (the character taken by the poll and the low bits are the spec's choice D6; the character's zero extension D14,
log 21; ended input answers not ready, D15; a failing read of a ready poll is log 6, its record, the address `a` and the
direction, is D19, log 29, and that the latch stays after it D20, log 24; that each poll takes
one poll answer is log 32): the poll of KBSR, ready and not ready, never waits. -/
def Obligations.KbsrReadPollsTheKeyboard : Prop :=
  ∀ (a : Word) (s : State),
    ((s.input.polls.headD true = false ∨ (s.input.queue = [] ∧ FiniteInput s.input)) →
      memRead a s.cfg.kbsrAddr s = .ok 0x0000#16 { s with input := { s.input with polls := s.input.polls.tail } }) ∧
    (s.input.polls.headD true = true → ∀ c q, Supplies s.input c q →
      memRead a s.cfg.kbsrAddr s = .ok 0x8000#16
        { s with kbdrLatch := c.setWidth 16, input := { q with polls := s.input.polls.tail } }) ∧
    (s.input.polls.headD true = true → ∀ rest, s.input.queue = .error :: rest →
      ∃ t, memRead a s.cfg.kbsrAddr s = .ended t ∧ t.status = .ioError a .input ∧ t.kbdrLatch = s.kbdrLatch)

/-- R58: "A read of KBDR returns `kbdr_latch`" and has no side effect, so it gives the most recently polled character,
in the low byte, as often as it is read. That the poll takes the character is the spec's choice D6 (log 19), its one
byte and zero extension D14 (log 21), the high byte D7 (log 14). -/
def Obligations.KbdrReadsTheLastPolledCharacter : Prop :=
  ∀ (a : Word) (s : State), s.cfg.distinctDevices = true →
    memRead a s.cfg.kbdrAddr s = .ok s.kbdrLatch s ∧
    (∀ c q, Supplies s.input c q → ∀ t, memRead a s.cfg.kbsrAddr s = .ok 0x8000#16 t →
      memRead a t.cfg.kbdrAddr t = .ok (c.setWidth 16) t)

/-- R59: a write to KBSR or KBDR changes no state, whichever store makes it. -/
def Obligations.DeviceStoresAreIgnored : Prop :=
  ∀ (s : State),
    (∀ sr off, isDevice s.cfg (s.pc + off.signExtend 16) = true → exec (.st sr off) s = .next s) ∧
    (∀ sr b off, isDevice s.cfg (getReg b s + off.signExtend 16) = true → exec (.str sr b off) s = .next s) ∧
    (∀ sr off m ptr, memRead (s.pc - 1#16) (s.pc + off.signExtend 16) s = .ok ptr m → isDevice m.cfg ptr = true →
      exec (.sti sr off) s = .next m)

/-- R52, R53 (derived): a plain address reads as the word last written to it, with no side effect; every other plain
address reads as before. -/
def Obligations.ReadAfterWrite : Prop :=
  ∀ (a addr v : Word) (s : State), s.mem.wf = true → isDevice s.cfg addr = false →
    memRead a addr (memWrite addr v s) = .ok v (memWrite addr v s) ∧
    ∀ b, b ≠ addr → isDevice s.cfg b = false →
      memRead a b (memWrite addr v s) = .ok (wordAt b s) (memWrite addr v s)

/-! Loads (42_load_store.md). -/

/-- R120, R122: LD and LDR put what the read path gives into the destination and set the flags from it; a poll that
fails ends the run. For every address, a device register or not. The record of the `IoError`, this instruction's address
and the direction, is the spec's choice D19 (log 29; the address as `pc - 1`, log 11). -/
def Obligations.LdLdrFollowTheReadPath : Prop :=
  ∀ (s : State) (ea : Word) (i : Instr) (dr : Reg),
    ((∃ off, i = .ld dr off ∧ ea = s.pc + off.signExtend 16) ∨
      ∃ b off, i = .ldr dr b off ∧ ea = getReg b s + off.signExtend 16) →
    (∃ v m t, memRead (s.pc - 1#16) ea s = .ok v m ∧ exec i s = .next t ∧
      getReg dr t = v ∧ FlagsMatch v t.cond ∧ KeepsRegs [dr] s t ∧ t.pc = s.pc ∧ KeepsWords [] s t ∧
      KeepsIo m t ∧ KeepsRun s t) ∨
    (∃ m t, memRead (s.pc - 1#16) ea s = .ended m ∧ exec i s = .next t ∧ t.status = .ioError (s.pc - 1#16) .input)

/-- R121: LDI reads the pointer, then the word it points to, each through the read path, in this order. The record of
the `IoError` is the spec's choice D19 (log 29; the address as `pc - 1`, log 11). -/
def Obligations.LdiReadsTwice : Prop :=
  ∀ (s : State) (dr : Reg) (off : BitVec 9),
    (∃ m t, memRead (s.pc - 1#16) (s.pc + off.signExtend 16) s = .ended m ∧ exec (.ldi dr off) s = .next t ∧
      t.status = .ioError (s.pc - 1#16) .input) ∨
    ∃ ptr m, memRead (s.pc - 1#16) (s.pc + off.signExtend 16) s = .ok ptr m ∧
      ((∃ m' t, memRead (s.pc - 1#16) ptr m = .ended m' ∧ exec (.ldi dr off) s = .next t ∧
          t.status = .ioError (s.pc - 1#16) .input) ∨
        ∃ v m' t, memRead (s.pc - 1#16) ptr m = .ok v m' ∧ exec (.ldi dr off) s = .next t ∧
          getReg dr t = v ∧ FlagsMatch v t.cond ∧ KeepsRegs [dr] s t ∧ t.pc = s.pc ∧ KeepsWords [] s t ∧
          KeepsIo m' t ∧ KeepsRun s t)

/-- R120 to R122 at plain storage: the loads complete with the word stored there, and touch no device. -/
def Obligations.LoadsFromPlainStorage : Prop :=
  ∀ (s : State) (dr : Reg),
    (∀ off : BitVec 9, isDevice s.cfg (s.pc + off.signExtend 16) = false → ∃ t, exec (.ld dr off) s = .next t ∧
      getReg dr t = wordAt (s.pc + off.signExtend 16) s ∧ FlagsMatch (getReg dr t) t.cond ∧
      KeepsRegs [dr] s t ∧ t.pc = s.pc ∧ KeepsOutside s t) ∧
    (∀ (b : Reg) (off : BitVec 6), isDevice s.cfg (getReg b s + off.signExtend 16) = false →
      ∃ t, exec (.ldr dr b off) s = .next t ∧
      getReg dr t = wordAt (getReg b s + off.signExtend 16) s ∧ FlagsMatch (getReg dr t) t.cond ∧
      KeepsRegs [dr] s t ∧ t.pc = s.pc ∧ KeepsOutside s t) ∧
    (∀ off : BitVec 9, isDevice s.cfg (s.pc + off.signExtend 16) = false →
      isDevice s.cfg (wordAt (s.pc + off.signExtend 16) s) = false → ∃ t, exec (.ldi dr off) s = .next t ∧
      getReg dr t = wordAt (wordAt (s.pc + off.signExtend 16) s) s ∧ FlagsMatch (getReg dr t) t.cond ∧
      KeepsRegs [dr] s t ∧ t.pc = s.pc ∧ KeepsOutside s t)

/-- R123: LEA's result is the address itself, the flags follow it, and no memory is read or written. -/
def Obligations.LeaResultAndFrame : Prop :=
  ∀ (dr : Reg) (off : BitVec 9) (s : State), ∃ t, exec (.lea dr off) s = .next t ∧
    getReg dr t = s.pc + off.signExtend 16 ∧ FlagsMatch (getReg dr t) t.cond ∧
    KeepsRegs [dr] s t ∧ t.pc = s.pc ∧ KeepsOutside s t

/-! Stores. -/

/-- R124, R126: ST and STR store the register at the computed address, and every other word, every register, the flags
and everything else stay. A device address is `DeviceStoresAreIgnored`. -/
def Obligations.StStrStoreOneWord : Prop :=
  ∀ (s : State) (ea : Word) (i : Instr) (sr : Reg), s.mem.wf = true →
    ((∃ off, i = .st sr off ∧ ea = s.pc + off.signExtend 16) ∨
      ∃ b off, i = .str sr b off ∧ ea = getReg b s + off.signExtend 16) →
    ∃ t, exec i s = .next t ∧ (isDevice s.cfg ea = false → wordAt ea t = getReg sr s) ∧
      (isDevice s.cfg ea = true → wordAt ea t = wordAt ea s) ∧
      KeepsWords [ea] s t ∧ KeepsRegs [] s t ∧ t.cond = s.cond ∧ t.pc = s.pc ∧ KeepsIo s t ∧ KeepsRun s t

/-- R125: STI reads the pointer through the read path, then stores the register there; a poll that fails ends the run.
The record of the `IoError` is the spec's choice D19 (log 29; the address as `pc - 1`, log 11). -/
def Obligations.StiStoresThroughThePointer : Prop :=
  ∀ (s : State) (sr : Reg) (off : BitVec 9), s.mem.wf = true →
    (∃ m t, memRead (s.pc - 1#16) (s.pc + off.signExtend 16) s = .ended m ∧ exec (.sti sr off) s = .next t ∧
      t.status = .ioError (s.pc - 1#16) .input) ∨
    ∃ ptr m t, memRead (s.pc - 1#16) (s.pc + off.signExtend 16) s = .ok ptr m ∧ exec (.sti sr off) s = .next t ∧
      (isDevice s.cfg ptr = false → wordAt ptr t = getReg sr s) ∧
      (isDevice s.cfg ptr = true → wordAt ptr t = wordAt ptr s) ∧
      KeepsWords [ptr] s t ∧ KeepsRegs [] s t ∧ t.cond = s.cond ∧ t.pc = s.pc ∧ KeepsIo m t ∧ KeepsRun s t

/-- R125 at plain storage: STI completes, at the address the pointer word gives. -/
def Obligations.StiThroughPlainPointer : Prop :=
  ∀ (s : State) (sr : Reg) (off : BitVec 9), s.mem.wf = true →
    isDevice s.cfg (s.pc + off.signExtend 16) = false →
    ∃ t, exec (.sti sr off) s = .next t ∧
      (isDevice s.cfg (wordAt (s.pc + off.signExtend 16) s) = false →
        wordAt (wordAt (s.pc + off.signExtend 16) s) t = getReg sr s) ∧
      KeepsWords [wordAt (s.pc + off.signExtend 16) s] s t ∧
      KeepsRegs [] s t ∧ t.cond = s.cond ∧ t.pc = s.pc ∧ KeepsIo s t ∧ KeepsRun s t

/-- R71, R221 (derived): a word stored by ST is what the very next fetch from that address reads. -/
def Obligations.FetchSeesTheStore : Prop :=
  ∀ (s : State) (sr : Reg) (off : BitVec 9), s.mem.wf = true → isDevice s.cfg (s.pc + off.signExtend 16) = false →
    ∃ t, exec (.st sr off) s = .next t ∧
      fetch (setPc (s.pc + off.signExtend 16) t) =
        .ok (getReg sr s) (setPc (s.pc + off.signExtend 16 + 1#16) t)

/-! Jumps (43_jump.md). -/

/-- R140: JMP, through R7 as through any other register. -/
def Obligations.JmpResultAndFrame : Prop :=
  ∀ (b : Reg) (s : State), ∃ t, exec (.jmp b) s = .next t ∧ t.pc = getReg b s ∧
    KeepsRegs [] s t ∧ t.cond = s.cond ∧ KeepsOutside s t

/-- R141: JSR links the next instruction's address into R7 and goes to `pc + sext_11(pc_offset11)`; the flags stay. -/
def Obligations.JsrResultAndFrame : Prop :=
  ∀ (off : BitVec 11) (s : State), ∃ t, exec (.jsr off) s = .next t ∧ getReg 7 t = s.pc ∧
    t.pc = s.pc + off.signExtend 16 ∧ KeepsRegs [7] s t ∧ t.cond = s.cond ∧ KeepsOutside s t

/-- R142: JSRR links R7 and goes to the base register's value. JSRR R7 is `JsrrThroughR7GoesOn`. -/
def Obligations.JsrrResultAndFrame : Prop :=
  ∀ (b : Reg) (s : State), b ≠ 7 → ∃ t, exec (.jsrr b) s = .next t ∧ getReg 7 t = s.pc ∧
    t.pc = getReg b s ∧ KeepsRegs [7] s t ∧ t.cond = s.cond ∧ KeepsOutside s t

/-- R142, the case `base_r = 7`: the base is read after the link, so execution goes on at the next instruction. This is
the spec's choice D10 (I10, log 13), not the source's; the LC-3 differs. -/
def Obligations.JsrrThroughR7GoesOn : Prop :=
  ∀ s : State, ∃ t, exec (.jsrr 7) s = .next t ∧ getReg 7 t = s.pc ∧ t.pc = s.pc ∧
    KeepsRegs [7] s t ∧ t.cond = s.cond ∧ KeepsOutside s t

/-! TRAP and the services (44_trap.md). -/

/-- R151, R188: every other vector ends the run with `InvalidTrap(a, trapvect8)`. Of `pc` and R7 nothing is claimed
after a fatal condition (I1). The closed set and the record are the spec's choices D4 and D19 (log 29; the address as
`pc - 1`, log 11); that every register but R7, the flags, memory and the collaborators stay is D20 (log 24). -/
def Obligations.UnknownVectorIsInvalidTrap : Prop :=
  ∀ (v : BitVec 8) (s : State), v ∉ recognisedVectors → ∃ t, exec (.trap v) s = .next t ∧
    t.status = .invalidTrap (s.pc - 1#16) v ∧ KeepsRegs [7] s t ∧ t.cond = s.cond ∧ KeepsWords [] s t ∧ KeepsIo s t

/-- R160 (R0's extension and the flags are the spec's choices D14 and D9): GETC puts the next character into R0, sets
the flags from it, links R7, echoes nothing and leaves the latch alone (D28, log 28). That execution goes on at the next
address is D23 (log 27). -/
def Obligations.GetcReadsOneCharacter : Prop :=
  ∀ (s : State) (c : Byte) (q : InputPort), Supplies s.input c q → ∃ t, exec .getc s = .next t ∧
    getReg 0 t = c.setWidth 16 ∧ getReg 7 t = s.pc ∧ FlagsMatch (getReg 0 t) t.cond ∧ t.input = q ∧
    KeepsRegs [0, 7] s t ∧ t.pc = s.pc ∧ KeepsWords [] s t ∧ t.kbdrLatch = s.kbdrLatch ∧ t.output = s.output ∧
    t.status = s.status ∧ t.cfg = s.cfg ∧ t.wait = none

/-- R162: OUT writes the low byte of R0 and leaves everything else but R7; if the write fails the run ends with
`IoError` and nothing is written. That the byte follows every earlier one is the spec's choice D27 (log 28), the record
of the `IoError` its choice D19 (log 29; the address as `pc - 1`, log 11), that execution goes on at the next address
D23 (log 27). What else stays after the `IoError` is `EndOfRunWritesNoRegisterButR7`. -/
def Obligations.OutWritesTheLowByte : Prop :=
  ∀ s : State,
    (Takes s.output 1 → ∃ t, exec .out s = .next t ∧
      t.output = afterBytes s.output [(getReg 0 s).extractLsb' 0 8] ∧ getReg 7 t = s.pc ∧
      KeepsRegs [7] s t ∧ t.cond = s.cond ∧ t.pc = s.pc ∧ KeepsWords [] s t ∧
      t.kbdrLatch = s.kbdrLatch ∧ t.input = s.input ∧ KeepsRun s t) ∧
    (s.output.failIn = some 0 → ∃ t, exec .out s = .next t ∧ t.status = .ioError (s.pc - 1#16) .output ∧
      t.output = s.output)

/-- R164 (the ignored high byte and the read path with its pointer modulo 2^16 are the spec's choices D12 and D11): PUTS
writes the low byte of each word up to the first whole zero word. First for a string in plain storage wherever it
stands; then for whatever words the read path gives, a word at KBSR (0x8000, which writes 0x00 and goes on, or 0x0000,
which ends the string) and a word at KBDR among them, with the keyboard as those reads leave it. That the bytes go out
in order is D27 (log 28), that execution goes on at the next address D23 (log 27). -/
def Obligations.PutsWritesTheString : Prop :=
  (∀ (s : State) (ws : List Word), HoldsAt (getReg 0 s) (ws ++ [0#16]) s → 0#16 ∉ ws →
    Takes s.output ws.length → ∃ t, exec .puts s = .next t ∧
    t.output = afterBytes s.output (ws.map (·.extractLsb' 0 8)) ∧ getReg 7 t = s.pc ∧
    KeepsRegs [7] s t ∧ t.cond = s.cond ∧ t.pc = s.pc ∧ KeepsWords [] s t ∧
    t.kbdrLatch = s.kbdrLatch ∧ t.input = s.input ∧ KeepsRun s t) ∧
  (∀ (s m : State) (ws : List Word), ReadsFrom (s.pc - 1#16) (getReg 0 s) (ws ++ [0#16]) s m → 0#16 ∉ ws →
    Takes s.output ws.length → ∃ t, exec .puts s = .next t ∧
    t.output = afterBytes s.output (ws.map (·.extractLsb' 0 8)) ∧ getReg 7 t = s.pc ∧
    KeepsRegs [7] s t ∧ t.cond = s.cond ∧ t.pc = s.pc ∧ KeepsWords [] s t ∧
    t.kbdrLatch = m.kbdrLatch ∧ t.input = m.input ∧ KeepsRun s t)

/-- R170 (the unwritten zero high byte and the read path are the spec's choices D13 and D11): PUTSP writes two
characters a word, low byte first. First for a string in plain storage wherever it stands; then for whatever words the
read path gives, words at KBSR (0x8000 or 0x0000) and KBDR among them, with the keyboard as those reads leave it. That
the bytes go out in order is D27 (log 28), that execution goes on at the next address D23 (log 27). -/
def Obligations.PutspWritesThePackedString : Prop :=
  (∀ (s : State) (ws : List Word), HoldsAt (getReg 0 s) (ws ++ [0#16]) s → 0#16 ∉ ws →
    let bytes := ws.flatMap fun w =>
      w.extractLsb' 0 8 :: if w.extractLsb' 8 8 = 0#8 then [] else [w.extractLsb' 8 8]
    Takes s.output bytes.length → ∃ t, exec .putsp s = .next t ∧
    t.output = afterBytes s.output bytes ∧ getReg 7 t = s.pc ∧
    KeepsRegs [7] s t ∧ t.cond = s.cond ∧ t.pc = s.pc ∧ KeepsWords [] s t ∧
    t.kbdrLatch = s.kbdrLatch ∧ t.input = s.input ∧ KeepsRun s t) ∧
  (∀ (s m : State) (ws : List Word), ReadsFrom (s.pc - 1#16) (getReg 0 s) (ws ++ [0#16]) s m → 0#16 ∉ ws →
    let bytes := ws.flatMap fun w =>
      w.extractLsb' 0 8 :: if w.extractLsb' 8 8 = 0#8 then [] else [w.extractLsb' 8 8]
    Takes s.output bytes.length → ∃ t, exec .putsp s = .next t ∧
    t.output = afterBytes s.output bytes ∧ getReg 7 t = s.pc ∧
    KeepsRegs [7] s t ∧ t.cond = s.cond ∧ t.pc = s.pc ∧ KeepsWords [] s t ∧
    t.kbdrLatch = m.kbdrLatch ∧ t.input = m.input ∧ KeepsRun s t)

/-- R164, R170, I14: whatever memory holds and wherever the string starts, PUTS and PUTSP end, unless the input always
has one more character; the only effects are the link, the bytes written, polls of the keyboard, and an `IoError`, after
which nothing is claimed of `pc` and R7 (I1). That endless input is the one exception is log 10, the read path and the
pointer modulo 2^16 are the spec's choice D11 (log 23), what stays after the `IoError` D20 (log 24), its record D19 (log
29), and that execution goes on at the next address D23 (log 27). -/
def Obligations.StringsEndOnFiniteInput : Prop :=
  ∀ (i : Instr) (s : State), (i = .puts ∨ i = .putsp) → FiniteInput s.input → ∃ t, exec i s = .next t ∧
    s.output.written <+: t.output.written ∧ KeepsRegs [7] s t ∧ t.cond = s.cond ∧ KeepsWords [] s t ∧
    ((t.status = s.status ∧ t.pc = s.pc ∧ getReg 7 t = s.pc) ∨ ∃ d, t.status = .ioError (s.pc - 1#16) d)

/-- I14: the bound of a string is no cut: a string that has not ended within it never ends, so that following it further
changes nothing. The bound is the model's own (log 10); the read path, the pointer modulo 2^16 and the bytes of a word
are the spec's choices D11, D12 and D13 (log 23). -/
def Obligations.StringBoundIsEnough : Prop :=
  ∀ (s : State) (a p : Word) (n : Nat),
    stringLoop putsBytes a (stringBound s + n) p s = stringLoop putsBytes a (stringBound s) p s ∧
    stringLoop putspBytes a (stringBound s + n) p s = stringLoop putspBytes a (stringBound s) p s

/-- R166 (the echo's place, R0's extension and the flags are the spec's choices D26, D14 and D9): the prompt, one
character read, the same byte echoed, R0 and the flags. The prompt's text is open (D16, log 3); that the bytes go out in
order is D27 and that the latch stays D28 (log 28), that execution goes on at the next address D23 (log 27). -/
def Obligations.InPromptsReadsAndEchoes : Prop :=
  ∀ (s : State) (c : Byte) (q : InputPort), Supplies s.input c q → Takes s.output (s.cfg.inPrompt.length + 1) →
    ∃ t, exec .inp s = .next t ∧ t.output = afterBytes s.output (s.cfg.inPrompt ++ [c]) ∧
    getReg 0 t = c.setWidth 16 ∧ getReg 7 t = s.pc ∧ FlagsMatch (getReg 0 t) t.cond ∧ t.input = q ∧
    KeepsRegs [0, 7] s t ∧ t.pc = s.pc ∧ KeepsWords [] s t ∧ t.kbdrLatch = s.kbdrLatch ∧
    t.status = s.status ∧ t.cfg = s.cfg ∧ t.wait = none

/-- R37, R189 (ended input is the spec's choice D15, the record D19, log 29): GETC and IN on input that fails or has
ended end the run with `IoError(a, input)`; R0, the flags and memory stay, and IN's prompt stays written (D20, log 24).
A string of PUTS or PUTSP that comes to a failing poll of KBSR ends the run so too, with exactly the bytes of the words
before it written (R164, R170, R192). That a string is read through the read path with its pointer modulo 2^16 is the
spec's choice D11, and which bytes a word gives are its choices D12 and D13 (log 23). -/
def Obligations.NoInputIsIoError : Prop :=
  (∀ s : State, Fails s.input →
    (∃ t, exec .getc s = .next t ∧ t.status = .ioError (s.pc - 1#16) .input ∧ KeepsRegs [7] s t ∧ t.cond = s.cond ∧
      KeepsWords [] s t ∧ t.output = s.output) ∧
    (Takes s.output s.cfg.inPrompt.length → ∃ t, exec .inp s = .next t ∧ t.status = .ioError (s.pc - 1#16) .input ∧
      KeepsRegs [7] s t ∧ t.cond = s.cond ∧ KeepsWords [] s t ∧ t.output = afterBytes s.output s.cfg.inPrompt)) ∧
  (∀ (i : Instr) (emit : Word → List Byte) (s m e : State) (ws : List Word), StringService i emit →
    ReadsFrom (s.pc - 1#16) (getReg 0 s) ws s m → 0#16 ∉ ws → Takes s.output (ws.flatMap emit).length →
    memRead (s.pc - 1#16) (getReg 0 s + BitVec.ofNat 16 ws.length) m = .ended e →
    ∃ t, exec i s = .next t ∧ t.status = .ioError (s.pc - 1#16) .input ∧ KeepsRegs [7] s t ∧ t.cond = s.cond ∧
      KeepsWords [] s t ∧ t.output = afterBytes s.output (ws.flatMap emit))

/-- R38, R189 (what stays is the spec's choice D20, log 24; for HALT the error wins, D22; the record is D19, log 29): an
output error in IN's prompt, in IN's echo, in HALT's notice or in a string of PUTS or PUTSP ends the run with
`IoError(a, output)`, and exactly the bytes taken before it stay written. In a string, `w` is the word whose byte fails:
the words before it and it have been read, and nothing after it. That a string is read through the read path with its
pointer modulo 2^16 is the spec's choice D11, and which bytes a word gives are D12 and D13 (log 23); that the echo
follows the read and comes before R0 is written is D26, and that the bytes go out in order D27 (log 28). -/
def Obligations.OutputFailureIsIoError : Prop :=
  ∀ (s : State) (k : Nat), s.output.failIn = some k →
    (k < s.cfg.inPrompt.length → ∃ t, exec .inp s = .next t ∧ t.status = .ioError (s.pc - 1#16) .output ∧
      t.output.written = s.output.written ++ s.cfg.inPrompt.take k ∧ t.input = s.input ∧
      KeepsRegs [7] s t ∧ t.cond = s.cond ∧ KeepsWords [] s t) ∧
    (k = s.cfg.inPrompt.length → ∀ c q, Supplies s.input c q → ∃ t, exec .inp s = .next t ∧
      t.status = .ioError (s.pc - 1#16) .output ∧ t.output.written = s.output.written ++ s.cfg.inPrompt ∧ t.input = q ∧
      KeepsRegs [7] s t ∧ t.cond = s.cond ∧ KeepsWords [] s t) ∧
    (k < s.cfg.haltNotice.length → ∃ t, exec .halt s = .next t ∧ t.status = .ioError (s.pc - 1#16) .output ∧
      t.output.written = s.output.written ++ s.cfg.haltNotice.take k ∧
      KeepsRegs [7] s t ∧ t.cond = s.cond ∧ KeepsWords [] s t) ∧
    (∀ (i : Instr) (emit : Word → List Byte) (m : State) (ws : List Word) (w : Word), StringService i emit →
      ReadsFrom (s.pc - 1#16) (getReg 0 s) (ws ++ [w]) s m → 0#16 ∉ ws ++ [w] →
      (ws.flatMap emit).length ≤ k → k < ((ws ++ [w]).flatMap emit).length →
      ∃ t, exec i s = .next t ∧ t.status = .ioError (s.pc - 1#16) .output ∧
        t.output.written = s.output.written ++ ((ws ++ [w]).flatMap emit).take k ∧
        t.input = m.input ∧ t.kbdrLatch = m.kbdrLatch ∧ KeepsRegs [7] s t ∧ t.cond = s.cond ∧ KeepsWords [] s t)

/-- R186: HALT writes its notice and sets the status to `Halted(a)` (R7 and `pc` then hold `a + 1`, R172), and it is the
only normal termination path: no other instruction comes to `Halted`. -/
def Obligations.HaltEndsTheRun : Prop :=
  (∀ s : State, Takes s.output s.cfg.haltNotice.length → ∃ t, exec .halt s = .next t ∧
    t.status = .halted (s.pc - 1#16) ∧ t.output = afterBytes s.output s.cfg.haltNotice ∧ getReg 7 t = s.pc ∧
    t.pc = s.pc ∧ KeepsRegs [7] s t ∧ t.cond = s.cond ∧ KeepsWords [] s t ∧
    t.kbdrLatch = s.kbdrLatch ∧ t.input = s.input ∧ t.cfg = s.cfg ∧ t.wait = s.wait) ∧
  (∀ (i : Instr) (s t : State) (a : Word), i.wellFormed = true → s.status = .running → exec i s = .next t →
    t.status = .halted a → i = .halt)

/-- R34: GETC and IN wait while nothing has come, "While it waits no other state changes", and a read of memory, a poll
of the keyboard among them, never waits. -/
def Obligations.InputWaitHoldsTheStep : Prop :=
  (∀ s : State, Silent s.input → s.status = .running →
    (∃ t, exec .getc s = .next t ∧ t.wait = some .getc ∧ step t = .next t) ∧
    (Takes s.output s.cfg.inPrompt.length → ∃ t, exec .inp s = .next t ∧ t.wait = some .inp ∧
      t.output = afterBytes s.output s.cfg.inPrompt ∧ step t = .next t)) ∧
  (∀ a addr (s t : State), memRead a addr s ≠ .held t)

/-- R34, R209 (derived; the resumption is log 7): "the step is held until the input collaborator delivers a character or
fails". A character that comes during the wait gives the very state the service would have given had the character been
there before; an error, or the end of the input (the spec's choice D15), ends the run with `IoError(a, input)` (the
record is D19), with R0, the flags, memory, the latch and what IN has written before the wait as they were (D20, log 24;
the latch D28, log 28). -/
def Obligations.WaitingDoesNotChangeTheResult : Prop :=
  ∀ (i : Instr) (s t : State), (i = .getc ∨ i = .inp) → Silent s.input → s.status = .running →
    exec i s = .next t → t.status = .running →
    (∀ c, step (inputArrives (.char c) t) = exec i (inputArrives (.char c) s)) ∧
    (∀ t', t' = inputArrives .error t ∨ t' = inputEnds t → ∃ u, step t' = .next u ∧
      u.status = .ioError (s.pc - 1#16) .input ∧ KeepsRegs [7] s u ∧ u.cond = s.cond ∧ KeepsWords [] s u ∧
      u.kbdrLatch = s.kbdrLatch ∧ u.output = t.output ∧ u.cfg = s.cfg ∧ u.wait = none)

/-! Reserved opcodes (45_reserved.md). -/

/-- R180, R181: every RES and RTI word raises `InvalidOpcode(a, ir)` with its whole word. -/
def Obligations.ReservedRaisesInvalidOpcode : Prop :=
  ∀ (u : BitVec 12) (s : State),
    (∃ t, exec (.res u) s = .next t ∧ t.status = .invalidOpcode (s.pc - 1#16) (encode (.res u))) ∧
    (∃ t, exec (.rti u) s = .next t ∧ t.status = .invalidOpcode (s.pc - 1#16) (encode (.rti u)))

/-- R192 (the spec's choice D20): an instruction that ends the run writes no register but R7, no flag and no memory, and
RES, RTI and TRAP with an unrecognised vector move no collaborator. HALT and TRAP with an unrecognised vector do write
R7; after a fatal condition nothing is claimed of it, nor of `pc` (I1). -/
def Obligations.EndOfRunWritesNoRegisterButR7 : Prop :=
  ∀ (i : Instr) (s t : State), s.status = .running → exec i s = .next t → t.status ≠ .running →
    KeepsRegs [7] s t ∧ t.cond = s.cond ∧ KeepsWords [] s t ∧
    ((∃ a ir, t.status = .invalidOpcode a ir) ∨ (∃ a v, t.status = .invalidTrap a v) → KeepsIo s t)

/-- R97: a running machine whose fetch gives a word that decodes to RES or RTI fails with `InvalidOpcode` and takes no
step after it. The record, the address and the whole word, is the spec's choice D19 (log 29); that the fetch, from plain
storage or from a device register, goes through the read path is D18 (log 26). -/
def Obligations.ReservedWordEndsTheRun : Prop :=
  ∀ (s m : State) (ir : Word), s.status = .running → s.wait = none → memRead s.pc s.pc s = .ok ir m →
    ((∃ u, decode ir = .res u) ∨ ∃ u, decode ir = .rti u) →
    ∃ t, step s = .next t ∧ t.status = .invalidOpcode s.pc ir ∧ ∀ u, step t ≠ .next u

/-! The step (30_encoding.md R96). -/

/-- R96: only while the status is `Running`: fetch through the read path, move `pc` one word on, then execute the decoded
instruction; a fetch whose poll fails ends the run. That the fetch goes through the read path at a device register is the
spec's choice D18 (log 26); that a failing fetch ends the step before anything else is D22 and log 31, and its record is
D19 (log 29). -/
def Obligations.StepRunsTheDecodedInstruction : Prop :=
  (∀ s : State, s.status ≠ .running → ∀ t, step s ≠ .next t) ∧
  ∀ s : State, s.status = .running → s.wait = none →
    (∀ ir m, memRead s.pc s.pc s = .ok ir m → step s = exec (decode ir) { m with pc := s.pc + 1#16 }) ∧
    (∀ m, memRead s.pc s.pc s = .ended m → ∃ t, step s = .next t ∧ t.status = .ioError s.pc .input) ∧
    (isDevice s.cfg s.pc = false → ∀ i, i.wellFormed = true → wordAt s.pc s = encode i →
      step s = exec i { s with pc := s.pc + 1#16 })

/-- The host's placement: the step after it executes exactly the word placed (log 16). -/
def Obligations.PlacedWordIsExecuted : Prop :=
  ∀ (s : State) (n w : Nat), s.mem.wf = true →
    step (s.withFetchWord n w) =
      exec (decode (BitVec.ofNat 16 w)) { s.withFetchWord n w with pc := (s.withFetchWord n w).pc + 1#16 }

/-- R191, R33: once the run is over no step occurs, and whatever a run reaches from there is that same final state. -/
def Obligations.OverIsFinal : Prop :=
  ∀ s : State, s.status ≠ .running → (∀ t, step s ≠ .next t) ∧ ∀ t, Reaches s t → t.status = s.status ∧ t = s

/-- No instruction stops the machine: on every state whose run is not over the step answers a next state, unless the
input always has one more character (only then can a string never end, I14). -/
def Obligations.RunningMachineSteps : Prop :=
  ∀ s : State, s.status = .running → FiniteInput s.input → ∃ t, step s = .next t

/-! Whole-machine rules. -/

/-- The invariant holds right after reset. The latch's value is the spec's choice D7 (log 14). -/
def Obligations.ResetInv : Prop := State.reset.Inv

/-- The invariant holds after the image load, whatever the image, a load error included. Words at device addresses are
dropped by the spec's choice D21 (log 25), and the latch's value is D7 (log 14). -/
def Obligations.BootInv : Prop :=
  ∀ (cfg : Config) (inp : InputPort) (out : OutputPort) (img : ImageStream),
    cfg.distinctDevices = true → (boot cfg inp out img).Inv

/-- Every step keeps the invariant: memory canonical, nothing stored under a device register (R59), the latch's high byte
0 (R32), the parameters distinct (R56), only a running machine waiting (R34). -/
def Obligations.StepKeepsInv : Prop := ∀ s t : State, s.Inv → step s = .next t → t.Inv

/-- R54: no instruction and no service but ST, STI and STR writes memory. -/
def Obligations.OnlyStoresWriteMemory : Prop :=
  ∀ (i : Instr) (s t : State), (∀ sr off, i ≠ .st sr off) → (∀ sr off, i ≠ .sti sr off) →
    (∀ sr b off, i ≠ .str sr b off) → exec i s = .next t → t.mem = s.mem

/-- R23, R22: an instruction writes no general register but its destination and the implicit R0 and R7, while the run
goes on; when it does not, R7 is left out too, since nothing may be claimed of R7 after a fatal condition (R192, I1).
That the others stay then is the spec's choice D20 (log 24). -/
def Obligations.OnlyDestinationsAreWritten : Prop :=
  ∀ (i : Instr) (s t : State), exec i s = .next t →
    (t.status = .running → KeepsRegs (destRegs i) s t) ∧ KeepsRegs (7 :: destRegs i) s t

/-- R28 (GETC and IN are the spec's choice D9, log 20): the instructions with a destination field, GETC and IN set the
flags from what they wrote, unless the run ended in them or they wait; every other instruction leaves the flags as they
were. That the flags stay when a load, GETC or IN ends the run is the spec's choice D20 (log 24), and the wait as a
state of its own is log 7. -/
def Obligations.FlagsFollowTheDestination : Prop :=
  ∀ (i : Instr) (s t : State), i.wellFormed = true → s.status = .running → exec i s = .next t →
    match i with
    | .addReg dr _ _ | .addImm dr _ _ | .andReg dr _ _ | .andImm dr _ _ | .not dr _ | .lea dr _ =>
      FlagsMatch (getReg dr t) t.cond
    | .ld dr _ | .ldi dr _ | .ldr dr _ _ =>
      (t.status = .running → FlagsMatch (getReg dr t) t.cond) ∧ (t.status ≠ .running → t.cond = s.cond)
    | .getc | .inp =>
      (t.status = .running → t.wait = none → FlagsMatch (getReg 0 t) t.cond) ∧
      (t.status ≠ .running ∨ t.wait ≠ none → t.cond = s.cond)
    | .br _ _ _ _ | .st _ _ | .sti _ _ | .str _ _ _ | .jmp _ | .jsr _ | .jsrr _ | .trap _ | .out | .puts | .putsp
    | .halt | .res _ | .rti _ => t.cond = s.cond

/-- R24: only BR, JMP, JSR and JSRR leave `pc` elsewhere than at the next instruction; said of a run that goes on, since
nothing may be claimed of `pc` after a fatal condition (I1). That execution goes on at the next address after a service
is the spec's choice D23 (log 27), the wait as a state of its own log 7. -/
def Obligations.OnlyJumpsMovePc : Prop :=
  ∀ (i : Instr) (s t : State), (∀ n z p off, i ≠ .br n z p off) → (∀ b, i ≠ .jmp b) → (∀ off, i ≠ .jsr off) →
    (∀ b, i ≠ .jsrr b) → exec i s = .next t → t.status = .running → t.pc = s.pc

/-- R185 to R189: which instruction raises which terminal condition, with its own address in the record; a load error is
never raised by an instruction. The records are the spec's choice D19 (log 29; the address as `pc - 1`, log 11), the set
of recognised vectors D4 (log 1), and that the term of TRAP stands for the others is log 17. -/
def Obligations.TerminalConditionsAndTheirRaisers : Prop :=
  ∀ (i : Instr) (s t : State), s.status = .running → i.wellFormed = true → exec i s = .next t →
    match t.status with
    | .running => True
    | .halted a => i = .halt ∧ a = s.pc - 1#16
    | .invalidOpcode a ir => a = s.pc - 1#16 ∧ ((∃ u, i = .res u) ∨ ∃ u, i = .rti u) ∧ ir = encode i
    | .invalidTrap a v => a = s.pc - 1#16 ∧ i = .trap v
    | .ioError a .input => a = s.pc - 1#16 ∧ (i = .getc ∨ i = .inp ∨ i = .puts ∨ i = .putsp ∨ (∃ r o, i = .ld r o) ∨
        (∃ r o, i = .ldi r o) ∨ (∃ r b o, i = .ldr r b o) ∨ ∃ r o, i = .sti r o)
    | .ioError a .output => a = s.pc - 1#16 ∧ (i = .out ∨ i = .puts ∨ i = .inp ∨ i = .putsp ∨ i = .halt)
    | .loadError => False

/-- R38, R20: along a run the bytes written only grow, none dropped or changed, and the parameters stay. -/
def Obligations.OutputOnlyGrowsAlongARun : Prop :=
  ∀ s t : State, Reaches s t → s.output.written <+: t.output.written ∧ t.cfg = s.cfg
end

