-- ==== Sys2Proof/Laws/Memory.lean ====
section
/-! SUPPORT. The laws of storage: a read gives the last write, other addresses keep their words, and every write keeps
the canonical form. -/

namespace Sys2Proof.Machine

/-- The bound `lo` of the canonical form, as a proposition. -/
def Above (lo : Option Nat) (a : Nat) : Prop := ∀ b, lo = some b → b < a

theorem wfFrom_cons {lo : Option Nat} {a : Nat} {v : Word} {m : Memory} :
    Memory.wfFrom lo ((a, v) :: m) = true ↔ Above lo a ∧ a < 65536 ∧ v ≠ 0#16 ∧ Memory.wfFrom (some a) m = true := by
  cases lo <;> simp [Memory.wfFrom, Above, and_assoc]

theorem wfFrom_weaken {lo : Option Nat} {a : Nat} {m : Memory} (ha : Above lo a)
    (h : Memory.wfFrom (some a) m = true) : Memory.wfFrom lo m = true := by
  cases m with
  | nil => rfl
  | cons c m =>
    rw [wfFrom_cons] at h ⊢
    exact ⟨fun b hb => (ha b hb).trans (h.1 a rfl), h.2⟩

/-- No address at or below the bound is listed, so it reads as 0x0000. -/
theorem read_below {a b : Nat} {m : Memory} (h : Memory.wfFrom (some a) m = true) (hb : b ≤ a) : m.read b = 0#16 := by
  induction m generalizing a with
  | nil => rfl
  | cons c m ih =>
    obtain ⟨h1, -, -, h4⟩ := wfFrom_cons.1 h
    have : a < c.1 := h1 a rfl
    simp only [Memory.read, show c.1 ≠ b by omega, if_false]
    exact ih h4 (by omega)

/-- A write leaves every other address alone. -/
theorem read_write_other (m : Memory) {a b : Nat} (v : Word) (h : b ≠ a) : (m.write a v).read b = m.read b := by
  induction m with
  | nil => by_cases hv : v = 0#16 <;> simp [Memory.write, Memory.read, hv, h.symm]
  | cons c m ih =>
    obtain ⟨k, w⟩ := c
    simp only [Memory.write]
    split
    · by_cases hv : v = 0#16 <;> simp [Memory.read, hv, h.symm]
    · split
      · rename_i hk
        by_cases hv : v = 0#16 <;> simp [Memory.read, hv, h.symm, ← hk]
      · simp [Memory.read, ih]

/-- A read after a write to the same address gives the word written. -/
theorem read_write_same_from {lo : Option Nat} {m : Memory} (h : Memory.wfFrom lo m = true) (a : Nat) (v : Word) :
    (m.write a v).read a = v := by
  induction m generalizing lo with
  | nil => by_cases hv : v = 0#16 <;> simp [Memory.write, Memory.read, hv]
  | cons c m ih =>
    obtain ⟨k, w⟩ := c
    obtain ⟨-, -, -, h4⟩ := wfFrom_cons.1 h
    simp only [Memory.write]
    split
    · rename_i hlt
      by_cases hv : v = 0#16
      · simp only [hv, if_true, Memory.read, show k ≠ a by omega, if_false]
        exact read_below h4 (by omega)
      · simp [Memory.read, hv]
    · split
      · rename_i hk
        by_cases hv : v = 0#16
        · simp only [hv, if_true]
          exact read_below h4 (by omega)
        · simp [Memory.read, hv]
      · rename_i hne
        simp only [Memory.read, show k ≠ a from fun e => hne e.symm, if_false]
        exact ih h4

theorem read_write_same {m : Memory} (h : m.wf = true) (a : Nat) (v : Word) : (m.write a v).read a = v :=
  read_write_same_from h a v

theorem write_wfFrom {lo : Option Nat} {m : Memory} {a : Nat} (v : Word) (h : Memory.wfFrom lo m = true)
    (ha : Above lo a) (hr : a < 65536) : Memory.wfFrom lo (m.write a v) = true := by
  induction m generalizing lo with
  | nil =>
    by_cases hv : v = 0#16
    · simp [Memory.write, hv, Memory.wfFrom]
    · simp only [Memory.write, hv, if_false]
      exact wfFrom_cons.2 ⟨ha, hr, hv, rfl⟩
  | cons c m ih =>
    obtain ⟨k, w⟩ := c
    obtain ⟨h1, h2, h3, h4⟩ := wfFrom_cons.1 h
    simp only [Memory.write]
    split
    · rename_i hlt
      by_cases hv : v = 0#16
      · simpa [hv] using h
      · simp only [hv, if_false]
        exact wfFrom_cons.2 ⟨ha, hr, hv, wfFrom_cons.2 ⟨fun b hb => by cases hb; exact hlt, h2, h3, h4⟩⟩
    · split
      · rename_i hk
        subst hk
        by_cases hv : v = 0#16
        · simp only [hv, if_true]
          exact wfFrom_weaken ha h4
        · simp only [hv, if_false]
          exact wfFrom_cons.2 ⟨ha, hr, hv, h4⟩
      · exact wfFrom_cons.2 ⟨h1, h2, h3, ih h4 (fun b hb => by cases hb; omega)⟩

/-- Every write of an address in range keeps the canonical form. -/
theorem write_wf {m : Memory} (h : m.wf = true) (a v : Word) : (m.write a.toNat v).wf = true :=
  write_wfFrom v h (fun _ hb => nomatch hb) a.isLt

theorem wfFrom_all {lo : Option Nat} {m : Memory} (h : Memory.wfFrom lo m = true) {c : Nat × Word} (hc : c ∈ m) :
    c.1 < 65536 ∧ c.2 ≠ 0#16 := by
  induction m generalizing lo with
  | nil => simp at hc
  | cons d m ih =>
    obtain ⟨-, h2, h3, h4⟩ := wfFrom_cons.1 h
    rcases List.mem_cons.1 hc with rfl | hc
    · exact ⟨h2, h3⟩
    · exact ih h4 hc

end Sys2Proof.Machine
end

