-- ==== Sys2Proof/Laws/State.lean ====
section
/-! SUPPORT. One lemma per field per update, true by rfl, and what each register read gives after each update. -/

namespace Sys2Proof.Machine

variable (s : State)

@[simp] theorem setPc_regs (v : Word) : (setPc v s).regs = s.regs := rfl
@[simp] theorem setPc_pc (v : Word) : (setPc v s).pc = v := rfl
@[simp] theorem setPc_cond (v : Word) : (setPc v s).cond = s.cond := rfl
@[simp] theorem setPc_mem (v : Word) : (setPc v s).mem = s.mem := rfl
@[simp] theorem setPc_kbdrLatch (v : Word) : (setPc v s).kbdrLatch = s.kbdrLatch := rfl
@[simp] theorem setPc_status (v : Word) : (setPc v s).status = s.status := rfl
@[simp] theorem setPc_wait (v : Word) : (setPc v s).wait = s.wait := rfl
@[simp] theorem setPc_cfg (v : Word) : (setPc v s).cfg = s.cfg := rfl
@[simp] theorem setPc_input (v : Word) : (setPc v s).input = s.input := rfl
@[simp] theorem setPc_output (v : Word) : (setPc v s).output = s.output := rfl
@[simp] theorem getReg_setPc (i : Reg) (v : Word) : getReg i (setPc v s) = getReg i s := rfl

@[simp] theorem setCond_regs (v : Cond) : (setCond v s).regs = s.regs := rfl
@[simp] theorem setCond_pc (v : Cond) : (setCond v s).pc = s.pc := rfl
@[simp] theorem setCond_cond (v : Cond) : (setCond v s).cond = v := rfl
@[simp] theorem setCond_mem (v : Cond) : (setCond v s).mem = s.mem := rfl
@[simp] theorem setCond_kbdrLatch (v : Cond) : (setCond v s).kbdrLatch = s.kbdrLatch := rfl
@[simp] theorem setCond_status (v : Cond) : (setCond v s).status = s.status := rfl
@[simp] theorem setCond_wait (v : Cond) : (setCond v s).wait = s.wait := rfl
@[simp] theorem setCond_cfg (v : Cond) : (setCond v s).cfg = s.cfg := rfl
@[simp] theorem setCond_input (v : Cond) : (setCond v s).input = s.input := rfl
@[simp] theorem setCond_output (v : Cond) : (setCond v s).output = s.output := rfl
@[simp] theorem getReg_setCond (i : Reg) (v : Cond) : getReg i (setCond v s) = getReg i s := rfl

@[simp] theorem setMem_regs (v : Memory) : (setMem v s).regs = s.regs := rfl
@[simp] theorem setMem_pc (v : Memory) : (setMem v s).pc = s.pc := rfl
@[simp] theorem setMem_cond (v : Memory) : (setMem v s).cond = s.cond := rfl
@[simp] theorem setMem_mem (v : Memory) : (setMem v s).mem = v := rfl
@[simp] theorem setMem_kbdrLatch (v : Memory) : (setMem v s).kbdrLatch = s.kbdrLatch := rfl
@[simp] theorem setMem_status (v : Memory) : (setMem v s).status = s.status := rfl
@[simp] theorem setMem_wait (v : Memory) : (setMem v s).wait = s.wait := rfl
@[simp] theorem setMem_cfg (v : Memory) : (setMem v s).cfg = s.cfg := rfl
@[simp] theorem setMem_input (v : Memory) : (setMem v s).input = s.input := rfl
@[simp] theorem setMem_output (v : Memory) : (setMem v s).output = s.output := rfl
@[simp] theorem getReg_setMem (i : Reg) (v : Memory) : getReg i (setMem v s) = getReg i s := rfl

@[simp] theorem setLatch_regs (v : Word) : (setLatch v s).regs = s.regs := rfl
@[simp] theorem setLatch_pc (v : Word) : (setLatch v s).pc = s.pc := rfl
@[simp] theorem setLatch_cond (v : Word) : (setLatch v s).cond = s.cond := rfl
@[simp] theorem setLatch_mem (v : Word) : (setLatch v s).mem = s.mem := rfl
@[simp] theorem setLatch_kbdrLatch (v : Word) : (setLatch v s).kbdrLatch = v := rfl
@[simp] theorem setLatch_status (v : Word) : (setLatch v s).status = s.status := rfl
@[simp] theorem setLatch_wait (v : Word) : (setLatch v s).wait = s.wait := rfl
@[simp] theorem setLatch_cfg (v : Word) : (setLatch v s).cfg = s.cfg := rfl
@[simp] theorem setLatch_input (v : Word) : (setLatch v s).input = s.input := rfl
@[simp] theorem setLatch_output (v : Word) : (setLatch v s).output = s.output := rfl
@[simp] theorem getReg_setLatch (i : Reg) (v : Word) : getReg i (setLatch v s) = getReg i s := rfl

@[simp] theorem setStatus_regs (v : RunStatus) : (setStatus v s).regs = s.regs := rfl
@[simp] theorem setStatus_pc (v : RunStatus) : (setStatus v s).pc = s.pc := rfl
@[simp] theorem setStatus_cond (v : RunStatus) : (setStatus v s).cond = s.cond := rfl
@[simp] theorem setStatus_mem (v : RunStatus) : (setStatus v s).mem = s.mem := rfl
@[simp] theorem setStatus_kbdrLatch (v : RunStatus) : (setStatus v s).kbdrLatch = s.kbdrLatch := rfl
@[simp] theorem setStatus_status (v : RunStatus) : (setStatus v s).status = v := rfl
@[simp] theorem setStatus_wait (v : RunStatus) : (setStatus v s).wait = s.wait := rfl
@[simp] theorem setStatus_cfg (v : RunStatus) : (setStatus v s).cfg = s.cfg := rfl
@[simp] theorem setStatus_input (v : RunStatus) : (setStatus v s).input = s.input := rfl
@[simp] theorem setStatus_output (v : RunStatus) : (setStatus v s).output = s.output := rfl
@[simp] theorem getReg_setStatus (i : Reg) (v : RunStatus) : getReg i (setStatus v s) = getReg i s := rfl

@[simp] theorem setWait_regs (v : Option InputWait) : (setWait v s).regs = s.regs := rfl
@[simp] theorem setWait_pc (v : Option InputWait) : (setWait v s).pc = s.pc := rfl
@[simp] theorem setWait_cond (v : Option InputWait) : (setWait v s).cond = s.cond := rfl
@[simp] theorem setWait_mem (v : Option InputWait) : (setWait v s).mem = s.mem := rfl
@[simp] theorem setWait_kbdrLatch (v : Option InputWait) : (setWait v s).kbdrLatch = s.kbdrLatch := rfl
@[simp] theorem setWait_status (v : Option InputWait) : (setWait v s).status = s.status := rfl
@[simp] theorem setWait_wait (v : Option InputWait) : (setWait v s).wait = v := rfl
@[simp] theorem setWait_cfg (v : Option InputWait) : (setWait v s).cfg = s.cfg := rfl
@[simp] theorem setWait_input (v : Option InputWait) : (setWait v s).input = s.input := rfl
@[simp] theorem setWait_output (v : Option InputWait) : (setWait v s).output = s.output := rfl
@[simp] theorem getReg_setWait (i : Reg) (v : Option InputWait) : getReg i (setWait v s) = getReg i s := rfl

@[simp] theorem setInput_regs (v : InputPort) : (setInput v s).regs = s.regs := rfl
@[simp] theorem setInput_pc (v : InputPort) : (setInput v s).pc = s.pc := rfl
@[simp] theorem setInput_cond (v : InputPort) : (setInput v s).cond = s.cond := rfl
@[simp] theorem setInput_mem (v : InputPort) : (setInput v s).mem = s.mem := rfl
@[simp] theorem setInput_kbdrLatch (v : InputPort) : (setInput v s).kbdrLatch = s.kbdrLatch := rfl
@[simp] theorem setInput_status (v : InputPort) : (setInput v s).status = s.status := rfl
@[simp] theorem setInput_wait (v : InputPort) : (setInput v s).wait = s.wait := rfl
@[simp] theorem setInput_cfg (v : InputPort) : (setInput v s).cfg = s.cfg := rfl
@[simp] theorem setInput_input (v : InputPort) : (setInput v s).input = v := rfl
@[simp] theorem setInput_output (v : InputPort) : (setInput v s).output = s.output := rfl
@[simp] theorem getReg_setInput (i : Reg) (v : InputPort) : getReg i (setInput v s) = getReg i s := rfl

@[simp] theorem setOutput_regs (v : OutputPort) : (setOutput v s).regs = s.regs := rfl
@[simp] theorem setOutput_pc (v : OutputPort) : (setOutput v s).pc = s.pc := rfl
@[simp] theorem setOutput_cond (v : OutputPort) : (setOutput v s).cond = s.cond := rfl
@[simp] theorem setOutput_mem (v : OutputPort) : (setOutput v s).mem = s.mem := rfl
@[simp] theorem setOutput_kbdrLatch (v : OutputPort) : (setOutput v s).kbdrLatch = s.kbdrLatch := rfl
@[simp] theorem setOutput_status (v : OutputPort) : (setOutput v s).status = s.status := rfl
@[simp] theorem setOutput_wait (v : OutputPort) : (setOutput v s).wait = s.wait := rfl
@[simp] theorem setOutput_cfg (v : OutputPort) : (setOutput v s).cfg = s.cfg := rfl
@[simp] theorem setOutput_input (v : OutputPort) : (setOutput v s).input = s.input := rfl
@[simp] theorem setOutput_output (v : OutputPort) : (setOutput v s).output = v := rfl
@[simp] theorem getReg_setOutput (i : Reg) (v : OutputPort) : getReg i (setOutput v s) = getReg i s := rfl

@[simp] theorem setReg_pc (i : Reg) (v : Word) : (setReg i v s).pc = s.pc := rfl
@[simp] theorem setReg_cond (i : Reg) (v : Word) : (setReg i v s).cond = s.cond := rfl
@[simp] theorem setReg_mem (i : Reg) (v : Word) : (setReg i v s).mem = s.mem := rfl
@[simp] theorem setReg_kbdrLatch (i : Reg) (v : Word) : (setReg i v s).kbdrLatch = s.kbdrLatch := rfl
@[simp] theorem setReg_status (i : Reg) (v : Word) : (setReg i v s).status = s.status := rfl
@[simp] theorem setReg_wait (i : Reg) (v : Word) : (setReg i v s).wait = s.wait := rfl
@[simp] theorem setReg_cfg (i : Reg) (v : Word) : (setReg i v s).cfg = s.cfg := rfl
@[simp] theorem setReg_input (i : Reg) (v : Word) : (setReg i v s).input = s.input := rfl
@[simp] theorem setReg_output (i : Reg) (v : Word) : (setReg i v s).output = s.output := rfl

@[simp] theorem setInput_self : setInput s.input s = s := rfl
@[simp] theorem setOutput_self : setOutput s.output s = s := rfl
@[simp] theorem setOutput_eta : setOutput ⟨s.output.written, s.output.failIn⟩ s = s := rfl
@[simp] theorem setInput_setInput (p q : InputPort) : setInput p (setInput q s) = setInput p s := rfl
@[simp] theorem setOutput_setOutput (p q : OutputPort) : setOutput p (setOutput q s) = setOutput p s := rfl
@[simp] theorem setWait_setWait (v w : Option InputWait) : setWait v (setWait w s) = setWait v s := rfl

/-- Reading a register after a register write. -/
theorem getReg_setReg (i j : Reg) (v : Word) : getReg j (setReg i v s) = if j = i then v else getReg j s := by
  simp only [getReg, setReg, Vector.getElem_set, Fin.ext_iff, eq_comm]

@[simp] theorem getReg_setReg_same (i : Reg) (v : Word) : getReg i (setReg i v s) = v := by
  simp [getReg_setReg]

theorem getReg_setReg_ne {i j : Reg} (h : j ≠ i) (v : Word) : getReg j (setReg i v s) = getReg j s := by
  simp [getReg_setReg, h]

/-- Two states that agree on every register have the same register file. -/
theorem regs_ext {s t : State} (h : ∀ r, getReg r s = getReg r t) : s.regs = t.regs :=
  Vector.ext fun i hi => h ⟨i, hi⟩

@[simp] theorem raise_regs (c : RunStatus) : (raise c s).regs = s.regs := rfl
@[simp] theorem raise_pc (c : RunStatus) : (raise c s).pc = s.pc := rfl
@[simp] theorem raise_cond (c : RunStatus) : (raise c s).cond = s.cond := rfl
@[simp] theorem raise_mem (c : RunStatus) : (raise c s).mem = s.mem := rfl
@[simp] theorem raise_kbdrLatch (c : RunStatus) : (raise c s).kbdrLatch = s.kbdrLatch := rfl
@[simp] theorem raise_status (c : RunStatus) : (raise c s).status = c := rfl
@[simp] theorem raise_wait (c : RunStatus) : (raise c s).wait = s.wait := rfl
@[simp] theorem raise_cfg (c : RunStatus) : (raise c s).cfg = s.cfg := rfl
@[simp] theorem raise_input (c : RunStatus) : (raise c s).input = s.input := rfl
@[simp] theorem raise_output (c : RunStatus) : (raise c s).output = s.output := rfl
@[simp] theorem getReg_raise (i : Reg) (c : RunStatus) : getReg i (raise c s) = getReg i s := rfl

@[simp] theorem linkR7_pc : (linkR7 s).pc = s.pc := rfl
@[simp] theorem linkR7_cond : (linkR7 s).cond = s.cond := rfl
@[simp] theorem linkR7_mem : (linkR7 s).mem = s.mem := rfl
@[simp] theorem linkR7_kbdrLatch : (linkR7 s).kbdrLatch = s.kbdrLatch := rfl
@[simp] theorem linkR7_status : (linkR7 s).status = s.status := rfl
@[simp] theorem linkR7_wait : (linkR7 s).wait = s.wait := rfl
@[simp] theorem linkR7_cfg : (linkR7 s).cfg = s.cfg := rfl
@[simp] theorem linkR7_input : (linkR7 s).input = s.input := rfl
@[simp] theorem linkR7_output : (linkR7 s).output = s.output := rfl
theorem getReg_linkR7 (i : Reg) : getReg i (linkR7 s) = if i = 7 then s.pc else getReg i s := getReg_setReg s 7 i s.pc

@[simp] theorem trapEntry_pc : (trapEntry s).pc = s.pc := rfl
@[simp] theorem trapEntry_cond : (trapEntry s).cond = s.cond := rfl
@[simp] theorem trapEntry_mem : (trapEntry s).mem = s.mem := rfl
@[simp] theorem trapEntry_kbdrLatch : (trapEntry s).kbdrLatch = s.kbdrLatch := rfl
@[simp] theorem trapEntry_status : (trapEntry s).status = s.status := rfl
@[simp] theorem trapEntry_wait : (trapEntry s).wait = s.wait := rfl
@[simp] theorem trapEntry_cfg : (trapEntry s).cfg = s.cfg := rfl
@[simp] theorem trapEntry_input : (trapEntry s).input = s.input := rfl
@[simp] theorem trapEntry_output : (trapEntry s).output = s.output := rfl
theorem getReg_trapEntry (i : Reg) : getReg i (trapEntry s) = if i = 7 then s.pc else getReg i s := getReg_setReg s 7 i s.pc

@[simp] theorem writeDest_pc (i : Reg) (v : Word) : (writeDest i v s).pc = s.pc := rfl
@[simp] theorem writeDest_cond (i : Reg) (v : Word) : (writeDest i v s).cond = condOf v := by
  simp [writeDest, updateFlags]
@[simp] theorem writeDest_mem (i : Reg) (v : Word) : (writeDest i v s).mem = s.mem := rfl
@[simp] theorem writeDest_kbdrLatch (i : Reg) (v : Word) : (writeDest i v s).kbdrLatch = s.kbdrLatch := rfl
@[simp] theorem writeDest_status (i : Reg) (v : Word) : (writeDest i v s).status = s.status := rfl
@[simp] theorem writeDest_wait (i : Reg) (v : Word) : (writeDest i v s).wait = s.wait := rfl
@[simp] theorem writeDest_cfg (i : Reg) (v : Word) : (writeDest i v s).cfg = s.cfg := rfl
@[simp] theorem writeDest_input (i : Reg) (v : Word) : (writeDest i v s).input = s.input := rfl
@[simp] theorem writeDest_output (i : Reg) (v : Word) : (writeDest i v s).output = s.output := rfl
theorem getReg_writeDest (i j : Reg) (v : Word) : getReg j (writeDest i v s) = if j = i then v else getReg j s :=
  getReg_setReg s i j v

@[simp] theorem instrAddr_eq : instrAddr s = s.pc - 1#16 := rfl

end Sys2Proof.Machine
end

