-- ==== Sys2Proof/Laws/Ops.lean ====
section
/-! SUPPORT. What each shared operation can do, said once: how a flow ends, what a transaction answers, what a read and a
write of memory change, and what a string leaves alone. -/

namespace Sys2Proof.Machine

/-! How a flow ends. -/

section Flows
variable {α β : Type} {r : Flow α} {k : α → State → Flow β}

@[simp] theorem ok_andThen (v : α) (s : State) : (Flow.ok v s).andThen k = k v s := rfl
@[simp] theorem ended_andThen (s : State) : (Flow.ended s).andThen k = .ended s := rfl
@[simp] theorem held_andThen (s : State) : (Flow.held s).andThen k = .held s := rfl
@[simp] theorem endless_andThen (a : Word) : (Flow.endless a).andThen k = .endless a := rfl

theorem andThen_eq_ok {v : β} {t : State} : r.andThen k = .ok v t ↔ ∃ u m, r = .ok u m ∧ k u m = .ok v t := by
  cases r <;> simp

theorem andThen_eq_ended {t : State} :
    r.andThen k = .ended t ↔ r = .ended t ∨ ∃ u m, r = .ok u m ∧ k u m = .ended t := by
  cases r <;> simp

theorem andThen_eq_held {t : State} :
    r.andThen k = .held t ↔ r = .held t ∨ ∃ u m, r = .ok u m ∧ k u m = .held t := by
  cases r <;> simp

theorem andThen_eq_endless {a : Word} :
    r.andThen k = .endless a ↔ r = .endless a ∨ ∃ u m, r = .ok u m ∧ k u m = .endless a := by
  cases r <;> simp

@[simp] theorem ok_outcome (w : Option InputWait) (u : Unit) (s : State) : (Flow.ok u s).outcome w = .next s := rfl
@[simp] theorem ended_outcome (w : Option InputWait) (s : State) : (Flow.ended s).outcome w = .next s := rfl
@[simp] theorem held_outcome (w : Option InputWait) (s : State) : (Flow.held s).outcome w = .next (setWait w s) := rfl
@[simp] theorem endless_outcome (w : Option InputWait) (a : Word) :
    (Flow.endless a).outcome w = .fault (.stringNeverEnds a) := rfl

/-- An instruction's rule gives a next state exactly when it is done, has raised a condition, or is held. -/
theorem outcome_eq_next {r : Flow Unit} {w : Option InputWait} {t : State} :
    r.outcome w = .next t ↔ r = .ok () t ∨ r = .ended t ∨ ∃ m, r = .held m ∧ t = setWait w m := by
  cases r <;> simp [eq_comm]

end Flows

/-! The frame of reads and writes to the collaborators. -/

/-- `t` differs from `s` at most in the latch, the status and the two collaborators. -/
structure IoOnly (s t : State) : Prop where
  regs : t.regs = s.regs
  pc : t.pc = s.pc
  cond : t.cond = s.cond
  mem : t.mem = s.mem
  wait : t.wait = s.wait
  cfg : t.cfg = s.cfg

theorem IoOnly.refl (s : State) : IoOnly s s := ⟨rfl, rfl, rfl, rfl, rfl, rfl⟩

theorem IoOnly.trans {s t u : State} (h : IoOnly s t) (k : IoOnly t u) : IoOnly s u :=
  ⟨k.regs.trans h.regs, k.pc.trans h.pc, k.cond.trans h.cond, k.mem.trans h.mem, k.wait.trans h.wait, k.cfg.trans h.cfg⟩

theorem IoOnly.getReg {s t : State} (h : IoOnly s t) (i : Reg) : getReg i t = getReg i s := by
  simp only [Machine.getReg, h.regs]

/-! The input collaborator. -/

/-- A poll takes one poll answer and no character. -/
theorem inPoll_state (s : State) : (inPoll s).2 = setInput { s.input with polls := s.input.polls.tail } s := by
  unfold inPoll
  split
  · rename_i h
    have : { s.input with polls := [] } = s.input := by rw [← h]
    simp [h, this]
  · simp [*]

/-- A poll answers true only if the next `InRead` would not wait (R36). -/
theorem inPoll_answer (s : State) : (inPoll s).1 = (s.input.polls.headD true && inputReady s.input) := by
  unfold inPoll
  split <;> simp_all

/-- All that an `InRead` can come to. -/
theorem inRead_cases (a : Word) (s : State) :
    (∃ c p, inRead a s = .ok c (setInput p s)) ∨
    (∃ p, inRead a s = .ended (raise (.ioError a .input) (setInput p s))) ∨
    (inRead a s = .held s ∧ s.input.queue = [] ∧ s.input.tail = .silent) := by
  unfold inRead
  split
  · exact .inl ⟨_, _, rfl⟩
  · exact .inr (.inl ⟨_, rfl⟩)
  · split
    · exact .inr (.inl ⟨s.input, rfl⟩)
    · exact .inr (.inr ⟨rfl, by assumption, by assumption⟩)
    · exact .inl ⟨_, s.input, rfl⟩

/-- Where input is ready, an `InRead` does not wait. -/
theorem inRead_ready {a : Word} {s : State} (h : inputReady s.input = true) : ∀ t, inRead a s ≠ .held t := by
  intro t ht
  rcases inRead_cases a s with ⟨c, p, e⟩ | ⟨p, e⟩ | ⟨e, hq, hs⟩
  · rw [e] at ht; cases ht
  · rw [e] at ht; cases ht
  · simp [inputReady, hq, hs] at h

/-! The output collaborator. -/

/-- All that an `OutWrite` can come to. -/
theorem outWrite_cases (a : Word) (b : Byte) (s : State) :
    (∃ f, outWrite a b s = .ok () (setOutput { written := s.output.written ++ [b], failIn := f } s)) ∨
    (s.output.failIn = some 0 ∧ outWrite a b s = .ended (raise (.ioError a .output) s)) := by
  unfold outWrite
  split
  · exact .inr ⟨by assumption, rfl⟩
  · exact .inl ⟨_, rfl⟩
  · exact .inl ⟨_, rfl⟩

/-- All that writing a list of bytes can come to: all of them are written, or a first part and then an error. -/
theorem outBytes_cases (a : Word) (bs : List Byte) (s : State) :
    (∃ f, outBytes a bs s = .ok () (setOutput { written := s.output.written ++ bs, failIn := f } s)) ∨
    (∃ k f, k < bs.length ∧ outBytes a bs s =
      .ended (raise (.ioError a .output) (setOutput { written := s.output.written ++ bs.take k, failIn := f } s))) := by
  induction bs generalizing s with
  | nil => exact .inl ⟨s.output.failIn, by simp [outBytes]⟩
  | cons b bs ih =>
    rcases outWrite_cases a b s with ⟨f, e⟩ | ⟨h, e⟩
    · simp only [outBytes, e, ok_andThen]
      rcases ih (setOutput { written := s.output.written ++ [b], failIn := f } s) with ⟨g, e'⟩ | ⟨k, g, hk, e'⟩
      · exact .inl ⟨g, by simpa using e'⟩
      · exact .inr ⟨k + 1, g, by simpa using hk, by simpa using e'⟩
    · exact .inr ⟨0, s.output.failIn, by simp, by simp [outBytes, e]⟩

/-! The read path. -/

@[simp] theorem memRead_plain {a addr : Word} {s : State} (h : isDevice s.cfg addr = false) :
    memRead a addr s = .ok (wordAt addr s) s := by
  simp only [isDevice, Bool.or_eq_false_iff, beq_eq_false_iff_ne] at h
  simp [memRead, h.1, h.2, wordAt]

theorem memRead_kbsr {a addr : Word} {s : State} (h : addr = s.cfg.kbsrAddr) : memRead a addr s = kbsrRead a s := by
  simp [memRead, h]

theorem memRead_kbdr {a addr : Word} {s : State} (h : addr = s.cfg.kbdrAddr) (hd : s.cfg.distinctDevices = true) :
    memRead a addr s = .ok s.kbdrLatch s := by
  have hne : s.cfg.kbsrAddr ≠ s.cfg.kbdrAddr := by simpa [Config.distinctDevices] using hd
  simp [memRead, h, hne.symm]

/-- All that a read can come to: a word, with at most the latch and the input moved; or a failed poll. -/
theorem memRead_cases (a addr : Word) (s : State) :
    (∃ v p l, memRead a addr s = .ok v (setLatch l (setInput p s)) ∧
      (l = s.kbdrLatch ∨ ∃ c : Byte, l = c.setWidth 16)) ∨
    (∃ p, memRead a addr s = .ended (raise (.ioError a .input) (setInput p s))) := by
  unfold memRead
  split
  · unfold kbsrRead
    split
    · rename_i hr
      rw [inPoll_answer, Bool.and_eq_true] at hr
      rcases inRead_cases a (inPoll s).2 with ⟨c, p, e⟩ | ⟨p, e⟩ | ⟨e, hq, hs⟩
      · exact .inl ⟨_, p, c.setWidth 16, by rw [e, inPoll_state]; rfl, .inr ⟨c, rfl⟩⟩
      · exact .inr ⟨p, by rw [e, inPoll_state]; rfl⟩
      · rw [inPoll_state] at hq hs
        exact absurd hr.2 (by simp_all [inputReady])
    · exact .inl ⟨0x0000#16, (inPoll s).2.input, s.kbdrLatch, by rw [inPoll_state]; rfl, .inl rfl⟩
  · split
    · exact .inl ⟨_, s.input, s.kbdrLatch, rfl, .inl rfl⟩
    · exact .inl ⟨_, s.input, s.kbdrLatch, rfl, .inl rfl⟩

theorem memRead_ok_ioOnly {a addr v : Word} {s t : State} (h : memRead a addr s = .ok v t) :
    IoOnly s t ∧ t.status = s.status ∧ t.output = s.output := by
  rcases memRead_cases a addr s with ⟨v', p, l, e, -⟩ | ⟨p, e⟩
  · rw [e] at h; cases h; exact ⟨⟨rfl, rfl, rfl, rfl, rfl, rfl⟩, rfl, rfl⟩
  · rw [e] at h; cases h

theorem memRead_ended_ioOnly {a addr : Word} {s t : State} (h : memRead a addr s = .ended t) :
    IoOnly s t ∧ t.status = .ioError a .input ∧ t.output = s.output ∧ t.kbdrLatch = s.kbdrLatch := by
  rcases memRead_cases a addr s with ⟨v', p, l, e, -⟩ | ⟨p, e⟩
  · rw [e] at h; cases h
  · rw [e] at h; cases h; exact ⟨⟨rfl, rfl, rfl, rfl, rfl, rfl⟩, rfl, rfl, rfl⟩

/-- A read never waits and never goes on for ever. -/
theorem memRead_ends (a addr : Word) (s : State) :
    (∃ v t, memRead a addr s = .ok v t) ∨ ∃ t, memRead a addr s = .ended t := by
  rcases memRead_cases a addr s with ⟨v, p, l, e, -⟩ | ⟨p, e⟩
  · exact .inl ⟨_, _, e⟩
  · exact .inr ⟨_, e⟩

/-! The write path. -/

theorem memWrite_device {addr v : Word} {s : State} (h : isDevice s.cfg addr = true) : memWrite addr v s = s := by
  simp [memWrite, h]

theorem memWrite_plain {addr v : Word} {s : State} (h : isDevice s.cfg addr = false) :
    memWrite addr v s = setMem (s.mem.write addr.toNat v) s := by
  simp [memWrite, h]

/-- A write changes memory alone. -/
theorem memWrite_eq (addr v : Word) (s : State) : ∃ m, memWrite addr v s = setMem m s := by
  unfold memWrite
  split
  · exact ⟨s.mem, rfl⟩
  · exact ⟨_, rfl⟩

/-- A write leaves every other address alone. -/
theorem wordAt_memWrite_other {addr b v : Word} {s : State} (h : b ≠ addr) :
    wordAt b (memWrite addr v s) = wordAt b s := by
  unfold memWrite
  split
  · rfl
  · exact read_write_other _ _ fun e => h (BitVec.eq_of_toNat_eq e)

/-- A write keeps the canonical form of memory. -/
theorem memWrite_wf {addr v : Word} {s : State} (h : s.mem.wf = true) : (memWrite addr v s).mem.wf = true := by
  unfold memWrite
  split
  · exact h
  · exact write_wf h addr v

/-! Strings. -/

/-- A string changes nothing but the latch, the collaborators and, if it fails, the status. -/
theorem stringLoop_ioOnly {emit : Word → List Byte} {a : Word} {n : Nat} {p : Word} {s t : State}
    (h : (∃ u, stringLoop emit a n p s = .ok u t) ∨ stringLoop emit a n p s = .ended t) : IoOnly s t := by
  induction n generalizing p s with
  | zero => rcases h with ⟨u, h⟩ | h <;> cases h
  | succ n ih =>
    simp only [stringLoop] at h
    rcases memRead_ends a p s with ⟨w, m, e⟩ | ⟨m, e⟩
    · rw [e, ok_andThen] at h
      have h1 := (memRead_ok_ioOnly e).1
      by_cases hw : w = 0#16
      · rw [if_pos hw] at h
        rcases h with ⟨u, h⟩ | h <;> cases h
        exact h1
      · rw [if_neg hw] at h
        rcases outBytes_cases a (emit w) m with ⟨f, e'⟩ | ⟨k, f, -, e'⟩
        · rw [e', ok_andThen] at h
          have h2 : IoOnly m (setOutput ⟨m.output.written ++ emit w, f⟩ m) := ⟨rfl, rfl, rfl, rfl, rfl, rfl⟩
          exact (h1.trans h2).trans (ih h)
        · rw [e', ended_andThen] at h
          rcases h with ⟨u, h⟩ | h <;> cases h
          exact h1.trans ⟨rfl, rfl, rfl, rfl, rfl, rfl⟩
    · rw [e, ended_andThen] at h
      rcases h with ⟨u, h⟩ | h <;> cases h
      exact (memRead_ended_ioOnly e).1

/-- A string never waits. -/
theorem stringLoop_not_held (emit : Word → List Byte) (a : Word) (n : Nat) (p : Word) (s t : State) :
    stringLoop emit a n p s ≠ .held t := by
  induction n generalizing p s with
  | zero => simp [stringLoop]
  | succ n ih =>
    simp only [stringLoop]
    rcases memRead_ends a p s with ⟨w, m, e⟩ | ⟨m, e⟩
    · rw [e, ok_andThen]
      split
      · simp
      · rcases outBytes_cases a (emit w) m with ⟨f, e'⟩ | ⟨k, f, -, e'⟩
        · rw [e', ok_andThen]; exact ih _ _
        · simp [e']
    · simp [e]

end Sys2Proof.Machine
end

