-- ==== Sys2Proof/Laws/Exec.lean ====
section
/-! SUPPORT. What each meaning that is more than one update can come to, said once, guards included; and what `step` is
on a running machine. -/

namespace Sys2Proof.Machine

variable {s t : State}

/-! Loads and STI. -/

/-- A load ends with the word read in the destination, or with a failed poll. -/
theorem loadDest_cases {dr : Reg} {addr : Word} {w : Option InputWait} (h : (loadDest dr addr s).outcome w = .next t) :
    (∃ v m, memRead (instrAddr s) addr s = .ok v m ∧ t = writeDest dr v m) ∨
    memRead (instrAddr s) addr s = .ended t := by
  unfold loadDest at h
  rcases memRead_ends (instrAddr s) addr s with ⟨v, m, e⟩ | ⟨m, e⟩
  · rw [e] at h; cases h; exact .inl ⟨v, m, e, rfl⟩
  · rw [e] at h; cases h; exact .inr e

/-- LDI: the pointer, then the load; either read may be a failed poll. -/
theorem execLdi_cases {dr : Reg} {off : BitVec 9} (h : execLdi dr off s = .next t) :
    (∃ ptr m, readPointer off s = .ok ptr m ∧
      ((∃ v m', memRead (instrAddr s) ptr m = .ok v m' ∧ t = writeDest dr v m') ∨
        memRead (instrAddr s) ptr m = .ended t)) ∨
    readPointer off s = .ended t := by
  unfold execLdi at h
  rcases memRead_ends (instrAddr s) (pcRelative off s) s with ⟨ptr, m, e⟩ | ⟨m, e⟩
  · rw [readPointer, e, ok_andThen] at h
    have ha : instrAddr m = instrAddr s := by simp [(memRead_ok_ioOnly e).1.pc]
    exact .inl ⟨ptr, m, e, ha ▸ loadDest_cases h⟩
  · rw [readPointer, e] at h; cases h; exact .inr e

/-- STI: the pointer, then the store. -/
theorem execSti_cases {sr : Reg} {off : BitVec 9} (h : execSti sr off s = .next t) :
    (∃ ptr m, readPointer off s = .ok ptr m ∧ t = memWrite ptr (getReg sr m) m) ∨ readPointer off s = .ended t := by
  unfold execSti at h
  rcases memRead_ends (instrAddr s) (pcRelative off s) s with ⟨ptr, m, e⟩ | ⟨m, e⟩
  · rw [readPointer, e] at h; cases h; exact .inl ⟨ptr, m, e, rfl⟩
  · rw [readPointer, e] at h; cases h; exact .inr e

/-! The services, each from the state after trap entry. -/

/-- GETC: the character in R0; an input error; or the wait. -/
theorem serviceGetc_cases (h : serviceGetc s = .next t) :
    (∃ (c : Byte) (p : InputPort), t = writeDest 0 (c.setWidth 16) (setInput p (setWait none s))) ∨
    (∃ p, t = raise (.ioError (instrAddr s) .input) (setInput p (setWait none s))) ∨
    t = setWait (some .getc) s := by
  unfold serviceGetc getcBody at h
  rcases inRead_cases (instrAddr (setWait none s)) (setWait none s) with ⟨c, p, e⟩ | ⟨p, e⟩ | ⟨e, -, -⟩
  · rw [e] at h; cases h; exact .inl ⟨c, p, rfl⟩
  · rw [e] at h; cases h; exact .inr (.inl ⟨p, rfl⟩)
  · rw [e] at h; cases h; exact .inr (.inr rfl)

/-- IN after its prompt: the echo and R0; an input error; an error in the echo; or the wait. -/
theorem inBody_cases {m : State} (h : (inBody m).outcome (some .inp) = .next t) :
    (∃ (c : Byte) (p : InputPort) (f : Option Nat),
      t = writeDest 0 (c.setWidth 16) (setOutput ⟨m.output.written ++ [c], f⟩ (setInput p m))) ∨
    (∃ p, t = raise (.ioError (instrAddr m) .input) (setInput p m)) ∨
    (∃ p, t = raise (.ioError (instrAddr m) .output) (setInput p m)) ∨
    t = setWait (some .inp) m := by
  unfold inBody at h
  rcases inRead_cases (instrAddr m) m with ⟨c, p, e⟩ | ⟨p, e⟩ | ⟨e, -, -⟩
  · rw [e, ok_andThen] at h
    rcases outWrite_cases (instrAddr (setInput p m)) c (setInput p m) with ⟨f, e'⟩ | ⟨-, e'⟩
    · rw [e'] at h; cases h; exact .inl ⟨c, p, f, rfl⟩
    · rw [e'] at h; cases h; exact .inr (.inr (.inl ⟨p, rfl⟩))
  · rw [e] at h; cases h; exact .inr (.inl ⟨p, rfl⟩)
  · rw [e] at h; cases h; exact .inr (.inr (.inr rfl))

/-- IN: an error in its prompt, or the rest after the whole prompt. -/
theorem serviceIn_cases (h : serviceIn s = .next t) :
    (∃ o : OutputPort, s.output.written <+: o.written ∧
      t = raise (.ioError (instrAddr s) .output) (setOutput o (setWait none s))) ∨
    ∃ f, (inBody (setOutput ⟨s.output.written ++ s.cfg.inPrompt, f⟩ (setWait none s))).outcome (some .inp) = .next t := by
  unfold serviceIn at h
  rcases outBytes_cases (instrAddr s) s.cfg.inPrompt (setWait none s) with ⟨f, e⟩ | ⟨k, f, -, e⟩
  · rw [e, ok_andThen] at h; exact .inr ⟨f, h⟩
  · rw [e] at h; cases h; exact .inl ⟨_, List.prefix_append _ _, rfl⟩

/-- OUT: the byte, or an output error. -/
theorem serviceOut_cases (h : serviceOut s = .next t) :
    (∃ f, t = setOutput ⟨s.output.written ++ [(getReg 0 s).extractLsb' 0 8], f⟩ s) ∨
    t = raise (.ioError (instrAddr s) .output) s := by
  unfold serviceOut at h
  rcases outWrite_cases (instrAddr s) ((getReg 0 s).extractLsb' 0 8) s with ⟨f, e⟩ | ⟨-, e⟩
  · rw [e] at h; cases h; exact .inl ⟨f, rfl⟩
  · rw [e] at h; cases h; exact .inr rfl

/-- HALT: the notice and the end, or an error in the notice. -/
theorem serviceHalt_cases (h : serviceHalt s = .next t) :
    (∃ f, t = raise (.halted (instrAddr s)) (setOutput ⟨s.output.written ++ s.cfg.haltNotice, f⟩ s)) ∨
    ∃ o : OutputPort, s.output.written <+: o.written ∧ t = raise (.ioError (instrAddr s) .output) (setOutput o s) := by
  unfold serviceHalt haltBody at h
  rcases outBytes_cases (instrAddr s) s.cfg.haltNotice s with ⟨f, e⟩ | ⟨k, f, -, e⟩
  · rw [e] at h; cases h; exact .inl ⟨f, rfl⟩
  · rw [e] at h; cases h; exact .inr ⟨_, List.prefix_append _ _, rfl⟩

/-! Strings. -/

/-- What a string does to the latch, the status and the output: a latch only from a byte, bytes only added, and no
status but the one it had or an `IoError` of its own instruction. -/
structure StringFrame (a : Word) (s t : State) : Prop where
  io : IoOnly s t
  latch : t.kbdrLatch = s.kbdrLatch ∨ ∃ c : Byte, t.kbdrLatch = c.setWidth 16
  written : s.output.written <+: t.output.written
  status : t.status = s.status ∨ ∃ d, t.status = .ioError a d

theorem StringFrame.trans {a : Word} {s t u : State} (h : StringFrame a s t) (k : StringFrame a t u) : StringFrame a s u :=
  ⟨h.io.trans k.io, k.latch.elim (fun e => e ▸ h.latch) .inr, h.written.trans k.written,
    k.status.elim (fun e => e ▸ h.status) .inr⟩

theorem stringLoop_frame {emit : Word → List Byte} {a : Word} {n : Nat} {p : Word} {s t : State}
    (h : stringLoop emit a n p s = .ok () t ∨ stringLoop emit a n p s = .ended t) : StringFrame a s t := by
  induction n generalizing p s with
  | zero => rcases h with h | h <;> cases h
  | succ n ih =>
    simp only [stringLoop] at h
    rcases memRead_cases a p s with ⟨w, q, l, e, hl⟩ | ⟨q, e⟩
    · rw [e, ok_andThen] at h
      have h1 : StringFrame a s (setLatch l (setInput q s)) :=
        ⟨⟨rfl, rfl, rfl, rfl, rfl, rfl⟩, hl, List.prefix_refl _, .inl rfl⟩
      by_cases hw : w = 0#16
      · rw [if_pos hw] at h
        rcases h with h | h <;> cases h
        exact h1
      · rw [if_neg hw] at h
        rcases outBytes_cases a (emit w) (setLatch l (setInput q s)) with ⟨f, e'⟩ | ⟨k, f, -, e'⟩
        · rw [e', ok_andThen] at h
          have h2 : StringFrame a (setLatch l (setInput q s))
              (setOutput ⟨s.output.written ++ emit w, f⟩ (setLatch l (setInput q s))) :=
            ⟨⟨rfl, rfl, rfl, rfl, rfl, rfl⟩, .inl rfl, List.prefix_append _ _, .inl rfl⟩
          exact (h1.trans h2).trans (ih h)
        · rw [e', ended_andThen] at h
          rcases h with h | h <;> cases h
          exact h1.trans ⟨⟨rfl, rfl, rfl, rfl, rfl, rfl⟩, .inl rfl, List.prefix_append _ _, .inr ⟨_, rfl⟩⟩
    · rw [e, ended_andThen] at h
      rcases h with h | h <;> cases h
      exact ⟨⟨rfl, rfl, rfl, rfl, rfl, rfl⟩, .inl rfl, List.prefix_refl _, .inr ⟨_, rfl⟩⟩

/-- PUTS and PUTSP, from the state after trap entry. -/
theorem writeString_frame {emit : Word → List Byte} (h : (writeString emit s).outcome none = .next t) :
    StringFrame (instrAddr s) s t := by
  rcases outcome_eq_next.1 h with e | e | ⟨m, e, -⟩
  · exact stringLoop_frame (.inl e)
  · exact stringLoop_frame (.inr e)
  · exact absurd e (stringLoop_not_held _ _ _ _ _ _)

/-! The fetch and the step. -/

/-- A fetch reads the word at `pc` and moves `pc`, or its poll fails. -/
theorem fetch_cases (s : State) :
    (∃ ir m, memRead s.pc s.pc s = .ok ir m ∧ fetch s = .ok ir (setPc (s.pc + 1#16) m)) ∨
    ∃ m, memRead s.pc s.pc s = .ended m ∧ fetch s = .ended m := by
  unfold fetch
  rcases memRead_ends s.pc s.pc s with ⟨ir, m, e⟩ | ⟨m, e⟩
  · exact .inl ⟨ir, m, e, by rw [e, ok_andThen, (memRead_ok_ioOnly e).1.pc]⟩
  · exact .inr ⟨m, e, by rw [e]; rfl⟩

/-- A held step goes on where it waits. -/
theorem step_waiting {w : InputWait} (hr : s.status = .running) (hw : s.wait = some w) : step s = resumeWait w s := by
  simp [step, hr, hw]

/-- A running machine that does not wait runs what it fetched. -/
theorem step_fetched {ir : Word} (hr : s.status = .running) (hw : s.wait = none) (hf : fetch s = .ok ir t) :
    step s = exec (decode ir) t := by
  simp [step, hr, hw, hf]

/-- A fetch whose poll fails ends the run. -/
theorem step_failed (hr : s.status = .running) (hw : s.wait = none) (hf : fetch s = .ended t) : step s = .next t := by
  simp [step, hr, hw, hf]

/-- A run that is over takes no step. -/
theorem step_over (h : s.status ≠ .running) : step s = .fault (.runOver s.status) := by
  unfold step
  cases hc : s.status <;> first | rfl | exact absurd hc h

/-- All the ways a step can answer a next state. -/
theorem step_cases (h : step s = .next t) :
    s.status = .running ∧
      ((∃ w, s.wait = some w ∧ resumeWait w s = .next t) ∨
        (s.wait = none ∧ memRead s.pc s.pc s = .ended t) ∨
        ∃ ir m, s.wait = none ∧ memRead s.pc s.pc s = .ok ir m ∧
          exec (decode ir) (setPc (s.pc + 1#16) m) = .next t) := by
  by_cases hr : s.status = .running
  · refine ⟨hr, ?_⟩
    cases hw : s.wait with
    | some w => exact .inl ⟨w, rfl, step_waiting hr hw ▸ h⟩
    | none =>
      rcases fetch_cases s with ⟨ir, m, e, f⟩ | ⟨m, e, f⟩
      · exact .inr (.inr ⟨ir, m, rfl, e, step_fetched hr hw f ▸ h⟩)
      · rw [step_failed hr hw f] at h; cases h; exact .inr (.inl ⟨rfl, e⟩)
  · rw [step_over hr] at h; cases h

end Sys2Proof.Machine
end

