-- ==== Sys2Proof/Laws/Io.lean ====
section
/-! SUPPORT. What the collaborators' data decide: an `InRead` that delivers, fails or waits, bytes that are taken or not,
and a string followed through the words the read path gives it. -/

namespace Sys2Proof.Machine

variable {a : Word} {s : State}

/-! The input collaborator. -/

theorem inRead_supplies {c : Byte} {q : InputPort} (h : Supplies s.input c q) :
    inRead a s = .ok c (setInput q s) := by
  rcases h with ⟨rest, hq, rfl⟩ | ⟨hq, ht, rfl⟩
  · simp [inRead, hq]
  · simp [inRead, hq, ht]

theorem inRead_fails (h : Fails s.input) :
    ∃ p, inRead a s = .ended (raise (.ioError a .input) (setInput p s)) := by
  rcases h with ⟨rest, hq⟩ | ⟨hq, ht⟩
  · exact ⟨{ s.input with queue := rest }, by simp [inRead, hq]⟩
  · exact ⟨s.input, by simp [inRead, hq, ht]⟩

theorem inRead_silent (h : Silent s.input) : inRead a s = .held s := by
  simp [inRead, h.1, h.2]

/-! The output collaborator. -/

@[simp] theorem afterBytes_nil (o : OutputPort) : afterBytes o [] = o := by
  obtain ⟨w, f⟩ := o
  cases f <;> simp [afterBytes]

theorem afterBytes_append (o : OutputPort) (xs ys : List Byte) :
    afterBytes (afterBytes o xs) ys = afterBytes o (xs ++ ys) := by
  unfold afterBytes
  cases o.failIn <;> simp [Nat.sub_sub]

theorem Takes.mono {o : OutputPort} {m n : Nat} (h : Takes o n) (hm : m ≤ n) : Takes o m :=
  fun k hk => hm.trans (h k hk)

theorem Takes.after {o : OutputPort} {xs : List Byte} {n : Nat} (h : Takes o (xs.length + n)) :
    Takes (afterBytes o xs) n := by
  unfold Takes afterBytes at *
  cases ho : o.failIn <;> simp_all
  omega

theorem outBytes_takes {bs : List Byte} (h : Takes s.output bs.length) :
    outBytes a bs s = .ok () (setOutput (afterBytes s.output bs) s) := by
  induction bs generalizing s with
  | nil => simp [outBytes]
  | cons b bs ih =>
    have hb : outWrite a b s = .ok () (setOutput (afterBytes s.output [b]) s) := by
      unfold outWrite afterBytes
      cases hf : s.output.failIn with
      | none => rfl
      | some k => cases k with
        | zero => exact absurd (h 0 hf) (by simp)
        | succ n => simp
    have h2 : Takes (setOutput (afterBytes s.output [b]) s).output bs.length :=
      Takes.after (xs := [b]) (h.mono (by simp [Nat.add_comm]))
    simp only [outBytes, hb, ok_andThen, ih h2, setOutput_output, setOutput_setOutput, afterBytes_append,
      List.singleton_append]

theorem outBytes_fails {bs : List Byte} {k : Nat} (h : s.output.failIn = some k) (hk : k < bs.length) :
    ∃ f, outBytes a bs s =
      .ended (raise (.ioError a .output) (setOutput ⟨s.output.written ++ bs.take k, f⟩ s)) := by
  induction bs generalizing s k with
  | nil => simp at hk
  | cons b bs ih =>
    cases k with
    | zero =>
      refine ⟨s.output.failIn, ?_⟩
      simp only [outBytes, outWrite, h, ended_andThen, List.take_zero, List.append_nil]
      rw [← h, setOutput_eta]
    | succ k =>
      obtain ⟨f, e⟩ := ih (s := setOutput ⟨s.output.written ++ [b], some k⟩ s) (k := k) rfl (by simpa using hk)
      exact ⟨f, by simp [outBytes, outWrite, h, e]⟩

/-! A read depends neither on the registers nor on the output, and leaves them. -/

/-- `s` with another register file and another output. -/
def withRegsOut (r : Vector Word 8) (o : OutputPort) (s : State) : State := { s with regs := r, output := o }

/-- A flow whose states are changed by `f`. -/
def Flow.mapState {α : Type} (f : State → State) : Flow α → Flow α
  | .ok v t => .ok v (f t)
  | .ended t => .ended (f t)
  | .held t => .held (f t)
  | .endless b => .endless b

theorem inRead_withRegsOut (r : Vector Word 8) (o : OutputPort) :
    inRead a (withRegsOut r o s) = (inRead a s).mapState (withRegsOut r o) := by
  simp only [inRead, withRegsOut]
  split
  · rfl
  · rfl
  · split <;> rfl

theorem memRead_withRegsOut (addr : Word) (r : Vector Word 8) (o : OutputPort) :
    memRead a addr (withRegsOut r o s) = (memRead a addr s).mapState (withRegsOut r o) := by
  have hp : (inPoll (withRegsOut r o s)).1 = (inPoll s).1 ∧
      (inPoll (withRegsOut r o s)).2 = withRegsOut r o (inPoll s).2 := by
    rw [inPoll_answer, inPoll_answer, inPoll_state, inPoll_state]
    exact ⟨rfl, rfl⟩
  simp only [memRead, kbsrRead, hp.1, hp.2, inRead_withRegsOut]
  change (if addr = s.cfg.kbsrAddr then _ else if addr = s.cfg.kbdrAddr then _ else _) = _
  split
  · split
    · cases inRead a (inPoll s).2 <;> rfl
    · rfl
  · split <;> rfl

theorem memRead_setOutput {addr w : Word} {t : State} (o : OutputPort) (h : memRead a addr s = .ok w t) :
    memRead a addr (setOutput o s) = .ok w (setOutput o t) := by
  have k := memRead_withRegsOut (a := a) (s := s) addr s.regs o
  rw [h] at k
  rw [show setOutput o t = withRegsOut s.regs o t by rw [← (memRead_ok_ioOnly h).1.regs]; rfl]
  exact k

theorem memRead_linkR7 {addr w : Word} {t : State} (h : memRead a addr s = .ok w t) :
    memRead a addr (linkR7 s) = .ok w (linkR7 t) := by
  have k := memRead_withRegsOut (a := a) (s := s) addr (linkR7 s).regs s.output
  rw [h] at k
  have e := memRead_ok_ioOnly h
  rw [show linkR7 t = withRegsOut (linkR7 s).regs s.output t by
    rw [← e.2.2]; simp only [linkR7, setReg, withRegsOut, e.1.regs, e.1.pc]]
  exact k

/-- The read fails in the same way whatever the registers and the output are. -/
theorem memRead_ended_congr {addr : Word} {t : State} (r : Vector Word 8) (o : OutputPort)
    (h : memRead a addr s = .ended t) : memRead a addr (withRegsOut r o s) = .ended (withRegsOut r o t) := by
  rw [memRead_withRegsOut, h]
  rfl

/-! Strings. -/

@[simp] theorem readsFrom_nil {p : Word} {t : State} : ReadsFrom a p [] s t ↔ t = s := Iff.rfl

theorem readsFrom_cons {p w : Word} {ws : List Word} {t : State} :
    ReadsFrom a p (w :: ws) s t ↔ ∃ m, memRead a p s = .ok w m ∧ ReadsFrom a (p + 1#16) ws m t := Iff.rfl

theorem addr_succ (p : Word) (k : Nat) : p + 1#16 + BitVec.ofNat 16 k = p + BitVec.ofNat 16 (k + 1) := by
  rw [BitVec.add_assoc]
  congr 1
  apply BitVec.eq_of_toNat_eq
  simp [Nat.add_comm]

theorem readsFrom_append {p : Word} {ws vs : List Word} {t : State} :
    ReadsFrom a p (ws ++ vs) s t ↔
      ∃ m, ReadsFrom a p ws s m ∧ ReadsFrom a (p + BitVec.ofNat 16 ws.length) vs m t := by
  induction ws generalizing p s with
  | nil => simp
  | cons w ws ih =>
    simp only [List.cons_append, readsFrom_cons, ih, List.length_cons, addr_succ]
    constructor
    · rintro ⟨m, e, m', h, k⟩; exact ⟨m', ⟨m, e, h⟩, k⟩
    · rintro ⟨m', ⟨m, e, h⟩, k⟩; exact ⟨m, e, m', h, k⟩

/-- Reads change only what a read may change. -/
theorem ReadsFrom.frame {p : Word} {ws : List Word} {t : State} (h : ReadsFrom a p ws s t) :
    IoOnly s t ∧ t.status = s.status ∧ t.output = s.output := by
  induction ws generalizing p s with
  | nil => cases h; exact ⟨.refl _, rfl, rfl⟩
  | cons w ws ih =>
    obtain ⟨m, e, h⟩ := h
    obtain ⟨h1, h2, h3⟩ := memRead_ok_ioOnly e
    obtain ⟨k1, k2, k3⟩ := ih h
    exact ⟨h1.trans k1, k2.trans h2, k3.trans h3⟩

theorem ReadsFrom.withOutput {p : Word} {ws : List Word} {t : State} (o : OutputPort) (h : ReadsFrom a p ws s t) :
    ReadsFrom a p ws (setOutput o s) (setOutput o t) := by
  induction ws generalizing p s with
  | nil => cases h; rfl
  | cons w ws ih =>
    obtain ⟨m, e, h⟩ := h
    exact ⟨_, memRead_setOutput o e, ih h⟩

theorem ReadsFrom.afterLink {p : Word} {ws : List Word} {t : State} (h : ReadsFrom a p ws s t) :
    ReadsFrom a p ws (linkR7 s) (linkR7 t) := by
  induction ws generalizing p s with
  | nil => cases h; rfl
  | cons w ws ih =>
    obtain ⟨m, e, h⟩ := h
    exact ⟨_, memRead_linkR7 e, ih h⟩

/-- Words in plain storage are read as they stand, and the reads change nothing. -/
theorem HoldsAt.reads {p : Word} {ws : List Word} (h : HoldsAt p ws s) : ReadsFrom a p ws s s := by
  induction ws generalizing p with
  | nil => rfl
  | cons w ws ih =>
    have h0 := h 0 (by simp)
    simp only [BitVec.add_zero, List.getElem_cons_zero] at h0
    refine ⟨s, by rw [memRead_plain h0.1, h0.2], ih fun k hk => ?_⟩
    have := h (k + 1) (by simpa using hk)
    rw [addr_succ]
    simpa using this

/-- A string comes past the words the read path gives it, none of them zero, with their bytes written. -/
theorem stringLoop_reads {emit : Word → List Byte} {p : Word} {ws : List Word} {m : State} (n : Nat)
    (h : ReadsFrom a p ws s m) (h0 : 0#16 ∉ ws) (ht : Takes s.output (ws.flatMap emit).length) :
    stringLoop emit a (n + ws.length) p s =
      stringLoop emit a n (p + BitVec.ofNat 16 ws.length)
        (setOutput (afterBytes s.output (ws.flatMap emit)) m) := by
  induction ws generalizing p s m with
  | nil => cases h; simp
  | cons w ws ih =>
    obtain ⟨m', e, h⟩ := h
    simp only [List.mem_cons, not_or] at h0
    simp only [List.flatMap_cons, List.length_append] at ht
    have ho := (memRead_ok_ioOnly e).2.2
    rw [List.length_cons, ← Nat.add_assoc, stringLoop, e, ok_andThen, if_neg (Ne.symm h0.1),
      outBytes_takes (by rw [ho]; exact ht.mono (by omega)), ok_andThen, ho,
      ih (h.withOutput (afterBytes s.output (emit w))) h0.2 (by exact ht.after), addr_succ]
    simp [afterBytes_append]

end Sys2Proof.Machine
end

