-- ==== Sys2Proof/Laws/PerInstr.lean ====
section
/-! SUPPORT. The encoder against spec/opcode_table.json, one lemma for each constructor: the word it writes has, on the
row's fixed bits, the row's values. -/

namespace Sys2Proof.Laws.OpcodeRow

/-- `mask` and `match` of the instruction's row in spec/opcode_table.json. -/
def row : Instr → Word × Word
  | .br _ _ _ _ => (0xF000, 0x0000)
  | .addReg _ _ _ => (0xF020, 0x1000)
  | .addImm _ _ _ => (0xF020, 0x1020)
  | .ld _ _ => (0xF000, 0x2000)
  | .st _ _ => (0xF000, 0x3000)
  | .jsr _ => (0xF800, 0x4800)
  | .jsrr _ => (0xF800, 0x4000)
  | .andReg _ _ _ => (0xF020, 0x5000)
  | .andImm _ _ _ => (0xF020, 0x5020)
  | .ldr _ _ _ => (0xF000, 0x6000)
  | .str _ _ _ => (0xF000, 0x7000)
  | .rti _ => (0xF000, 0x8000)
  | .not _ _ => (0xF000, 0x9000)
  | .ldi _ _ => (0xF000, 0xA000)
  | .sti _ _ => (0xF000, 0xB000)
  | .jmp _ => (0xF000, 0xC000)
  | .res _ => (0xF000, 0xD000)
  | .lea _ _ => (0xF000, 0xE000)
  | .trap _ => (0xF000, 0xF000)
  | .getc => (0xF0FF, 0xF020)
  | .out => (0xF0FF, 0xF021)
  | .puts => (0xF0FF, 0xF022)
  | .inp => (0xF0FF, 0xF023)
  | .putsp => (0xF0FF, 0xF024)
  | .halt => (0xF0FF, 0xF025)

/-- The word of `i` lies in the row of `i`. -/
def Statement (i : Instr) : Prop := encode i &&& (row i).1 = (row i).2

/-- A word agrees with a row if each of its sixteen bits does. -/
theorem of_bits {w mask value : Word} (h : ∀ k < 16, (w.getLsbD k && mask.getLsbD k) = value.getLsbD k) :
    w &&& mask = value := by
  apply BitVec.eq_of_getLsbD_eq
  intro k hk
  simpa only [BitVec.getLsbD_and] using h k hk

theorem br (n : Bool) (z : Bool) (p : Bool) (off : BitVec 9) : Statement (.br n z p off) := by
  apply of_bits
  intro k hk
  simp only [encode, BitVec.getLsbD_append]
  interval_cases k <;> simp [row]

theorem addReg (dr : Reg) (sr1 : Reg) (sr2 : Reg) : Statement (.addReg dr sr1 sr2) := by
  apply of_bits
  intro k hk
  simp only [encode, BitVec.getLsbD_append]
  interval_cases k <;> simp [row]

theorem addImm (dr : Reg) (sr1 : Reg) (imm : BitVec 5) : Statement (.addImm dr sr1 imm) := by
  apply of_bits
  intro k hk
  simp only [encode, BitVec.getLsbD_append]
  interval_cases k <;> simp [row]

theorem ld (dr : Reg) (off : BitVec 9) : Statement (.ld dr off) := by
  apply of_bits
  intro k hk
  simp only [encode, BitVec.getLsbD_append]
  interval_cases k <;> simp [row]

theorem st (sr : Reg) (off : BitVec 9) : Statement (.st sr off) := by
  apply of_bits
  intro k hk
  simp only [encode, BitVec.getLsbD_append]
  interval_cases k <;> simp [row]

theorem jsr (off : BitVec 11) : Statement (.jsr off) := by
  apply of_bits
  intro k hk
  simp only [encode, BitVec.getLsbD_append]
  interval_cases k <;> simp [row]

theorem jsrr (b : Reg) : Statement (.jsrr b) := by
  apply of_bits
  intro k hk
  simp only [encode, BitVec.getLsbD_append]
  interval_cases k <;> simp [row]

theorem andReg (dr : Reg) (sr1 : Reg) (sr2 : Reg) : Statement (.andReg dr sr1 sr2) := by
  apply of_bits
  intro k hk
  simp only [encode, BitVec.getLsbD_append]
  interval_cases k <;> simp [row]

theorem andImm (dr : Reg) (sr1 : Reg) (imm : BitVec 5) : Statement (.andImm dr sr1 imm) := by
  apply of_bits
  intro k hk
  simp only [encode, BitVec.getLsbD_append]
  interval_cases k <;> simp [row]

theorem ldr (dr : Reg) (b : Reg) (off : BitVec 6) : Statement (.ldr dr b off) := by
  apply of_bits
  intro k hk
  simp only [encode, BitVec.getLsbD_append]
  interval_cases k <;> simp [row]

theorem str (sr : Reg) (b : Reg) (off : BitVec 6) : Statement (.str sr b off) := by
  apply of_bits
  intro k hk
  simp only [encode, BitVec.getLsbD_append]
  interval_cases k <;> simp [row]

theorem rti (u : BitVec 12) : Statement (.rti u) := by
  apply of_bits
  intro k hk
  simp only [encode, BitVec.getLsbD_append]
  interval_cases k <;> simp [row]

theorem not (dr : Reg) (sr : Reg) : Statement (.not dr sr) := by
  apply of_bits
  intro k hk
  simp only [encode, BitVec.getLsbD_append]
  interval_cases k <;> simp [row]

theorem ldi (dr : Reg) (off : BitVec 9) : Statement (.ldi dr off) := by
  apply of_bits
  intro k hk
  simp only [encode, BitVec.getLsbD_append]
  interval_cases k <;> simp [row]

theorem sti (sr : Reg) (off : BitVec 9) : Statement (.sti sr off) := by
  apply of_bits
  intro k hk
  simp only [encode, BitVec.getLsbD_append]
  interval_cases k <;> simp [row]

theorem jmp (b : Reg) : Statement (.jmp b) := by
  apply of_bits
  intro k hk
  simp only [encode, BitVec.getLsbD_append]
  interval_cases k <;> simp [row]

theorem res (u : BitVec 12) : Statement (.res u) := by
  apply of_bits
  intro k hk
  simp only [encode, BitVec.getLsbD_append]
  interval_cases k <;> simp [row]

theorem lea (dr : Reg) (off : BitVec 9) : Statement (.lea dr off) := by
  apply of_bits
  intro k hk
  simp only [encode, BitVec.getLsbD_append]
  interval_cases k <;> simp [row]

theorem trap (v : BitVec 8) : Statement (.trap v) := by
  apply of_bits
  intro k hk
  simp only [encode, BitVec.getLsbD_append]
  interval_cases k <;> simp [row]

theorem getc : Statement .getc := rfl
theorem out : Statement .out := rfl
theorem puts : Statement .puts := rfl
theorem inp : Statement .inp := rfl
theorem putsp : Statement .putsp := rfl
theorem halt : Statement .halt := rfl

end Sys2Proof.Laws.OpcodeRow
end

