-- ==== Sys2Proof/Tests/Slice0.lean ====
section
/-! SUPPORT. Tests and witnesses. Every expected value is the spec's: the words are written out from the formats of
30_encoding.md R78, the results are rows of 95_test_vectors.md or worked examples of the instruction rules. The
witnesses at the end show, for every obligation with hypotheses, a state and operands that meet all of them. -/

namespace Sys2Proof.Tests

open Sys2Proof.Machine

set_option maxRecDepth 4000

/-! WellFormed: `.trap` does not stand for a recognised vector; every other term is well formed. -/

theorem test_wf_refuses_trap_getc : (Instr.trap 0x20#8).wellFormed = false := by decide
theorem test_wf_refuses_trap_halt : (Instr.trap 0x25#8).wellFormed = false := by decide
theorem test_wf_trap_below : (Instr.trap 0x1F#8).wellFormed = true := by decide
theorem test_wf_trap_above : (Instr.trap 0x26#8).wellFormed = true := by decide
theorem test_wf_halt : Instr.halt.wellFormed = true := by decide

/-! Decoding, one word for each constructor, written bit by bit from R78 (opcode, then the fields from bit 11 down). -/

theorem test_decode_br : decode 0b0000_101_000000010#16 = .br true false true 2 := by decide
theorem test_decode_addReg : decode 0b0001_000_001_0_00_010#16 = .addReg 0 1 2 := by decide
theorem test_decode_addReg_unused : decode 0b0001_000_001_0_11_010#16 = .addReg 0 1 2 := by decide
theorem test_decode_addImm : decode 0b0001_011_110_1_10000#16 = .addImm 3 6 0b10000 := by decide
theorem test_decode_ld : decode 0b0010_010_000000010#16 = .ld 2 2 := by decide
theorem test_decode_st : decode 0b0011_110_100000001#16 = .st 6 0b100000001 := by decide
theorem test_decode_jsr : decode 0b0100_1_10000000001#16 = .jsr 0b10000000001 := by decide
theorem test_decode_jsrr : decode 0b0100_0_00_010_000000#16 = .jsrr 2 := by decide
theorem test_decode_jsrr_unused : decode 0b0100_0_11_010_111111#16 = .jsrr 2 := by decide
theorem test_decode_andReg : decode 0b0101_110_100_0_00_101#16 = .andReg 6 4 5 := by decide
theorem test_decode_andImm : decode 0b0101_110_100_1_01111#16 = .andImm 6 4 0b01111 := by decide
theorem test_decode_ldr : decode 0b0110_101_011_100001#16 = .ldr 5 3 0b100001 := by decide
theorem test_decode_str : decode 0b0111_001_010_011111#16 = .str 1 2 0b011111 := by decide
theorem test_decode_rti : decode 0b1000_000000000000#16 = .rti 0 := by decide
theorem test_decode_not : decode 0b1001_001_110_111111#16 = .not 1 6 := by decide
theorem test_decode_not_unused : decode 0b1001_001_110_000000#16 = .not 1 6 := by decide
theorem test_decode_ldi : decode 0b1010_011_000000101#16 = .ldi 3 5 := by decide
theorem test_decode_sti : decode 0b1011_100_111111111#16 = .sti 4 0b111111111 := by decide
theorem test_decode_jmp : decode 0b1100_000_111_000000#16 = .jmp 7 := by decide
theorem test_decode_jmp_unused : decode 0b1100_111_011_111111#16 = .jmp 3 := by decide
theorem test_decode_res : decode 0b1101_111111111111#16 = .res 0b111111111111 := by decide
theorem test_decode_lea : decode 0b1110_101_111111110#16 = .lea 5 0b111111110 := by decide
theorem test_decode_trap : decode 0b1111_0000_00100110#16 = .trap 0x26 := by decide
theorem test_decode_getc : decode 0b1111_0000_00100000#16 = .getc := by decide
theorem test_decode_out : decode 0b1111_0000_00100001#16 = .out := by decide
theorem test_decode_puts : decode 0b1111_0000_00100010#16 = .puts := by decide
theorem test_decode_in : decode 0b1111_0000_00100011#16 = .inp := by decide
theorem test_decode_putsp : decode 0b1111_0000_00100100#16 = .putsp := by decide
theorem test_decode_halt : decode 0b1111_0000_00100101#16 = .halt := by decide
theorem test_decode_halt_unused : decode 0b1111_1111_00100101#16 = .halt := by decide

/-- R80: the source's two examples of sign extension. -/
theorem test_sext5 : sext 0b11111#5 = 0xFFFF#16 ∧ sext 0b01111#5 = 0x000F#16 := by decide

/-- The host's two entry points: a table word, and a word placed where the next step fetches. -/
theorem test_table_word : decodeTableWord 16 0x1042 = some (.addReg 0 1 2) := by decide

theorem test_placed_word : (State.reset.withFetchWord 16 0xE0FF).mem = [(0x3000, 0xE0FF#16)] := by decide

/-! One step. -/

/-- From reset with the word `w` at 0x3000 and the changes `f`, one step comes to a state that `p` holds of. -/
def after (w : Word) (f : State → State) (p : State → Bool) : Bool :=
  match step (f (setMem [(0x3000, w)] State.reset)) with
  | .next t => p t
  | .fault _ | .refused _ => false

/-- A memory cell of a test's start. -/
def poke (a v : Word) (s : State) : State := setMem (s.mem.write a.toNat v) s

/-- Input of a test: the characters held, in order. -/
def typed (cs : List Byte) (s : State) : State := setInput { s.input with queue := cs.map .char } s

/-- BR, L1.8: an intersection of 2 branches. -/
theorem test_br_intersection_two : after 0x0405 id (fun t => t.pc == 0x3006#16) = true := by decide
/-- BR, L2.1: BRnp does not branch on ZRO. -/
theorem test_br_not_taken : after 0x0A05 id (fun t => t.pc == 0x3001#16) = true := by decide
/-- ADD, L2.3: signed overflow. -/
theorem test_add_overflow : after 0x1042 (fun s => setReg 1 0x7FFF#16 (setReg 2 0x0001#16 s))
    (fun t => getReg 0 t == 0x8000#16 && t.cond == .neg) = true := by decide
/-- ADD, L2.3: imm5 = -16. -/
theorem test_add_imm : after 0x1030 (setReg 0 0x0010#16) (fun t => getReg 0 t == 0#16 && t.cond == .zro) = true := by decide
/-- AND, L2.3. -/
theorem test_and : after 0x5042 (fun s => setReg 1 0x8001#16 (setReg 2 0x8000#16 s))
    (fun t => getReg 0 t == 0x8000#16 && t.cond == .neg) = true := by decide
/-- AND, L2.3: imm5 = -16. -/
theorem test_and_imm : after 0x5030 (setReg 0 0xABCD#16) (fun t => getReg 0 t == 0xABC0#16) = true := by decide
/-- NOT, L2.3. -/
theorem test_not : after 0x907F (setReg 1 0x8000#16) (fun t => getReg 0 t == 0x7FFF#16 && t.cond == .pos) = true := by decide
/-- LD, L2.4. -/
theorem test_ld : after 0x2402 (poke 0x3003#16 0x8001#16)
    (fun t => getReg 2 t == 0x8001#16 && t.cond == .neg) = true := by decide
/-- LDI, L2.4: through a pointer to KBSR, ready. -/
theorem test_ldi_kbsr : after 0xA001 (fun s => poke 0x3002#16 0xFE00#16 (typed [0x5A] s))
    (fun t => getReg 0 t == 0x8000#16 && t.kbdrLatch == 0x005A#16 && t.input.queue == []) = true := by decide
/-- LDI, L1.4. -/
theorem test_ldi : after 0xA605 (fun s => poke 0x3006#16 0x4000#16 (poke 0x4000#16 0x0042#16 s))
    (fun t => getReg 3 t == 0x0042#16 && t.cond == .pos) = true := by decide
/-- LDR, L2.4: the offset wraps below 0. -/
theorem test_ldr_wraps : after 0x6060 (fun s => setReg 1 0x0010#16 (poke 0xFFF0#16 0x7777#16 s))
    (fun t => getReg 0 t == 0x7777#16) = true := by decide
/-- LDR, L2.4: at KBSR, not ready. -/
theorem test_ldr_kbsr_not_ready : after 0x6040 (setReg 1 0xFE00#16)
    (fun t => getReg 0 t == 0#16 && t.cond == .zro) = true := by decide
/-- LEA, L2.4. -/
theorem test_lea : after 0xEBFE id (fun t => getReg 5 t == 0x2FFF#16 && t.cond == .pos) = true := by decide
/-- ST, L2.5: it overwrites its own word. -/
theorem test_st : after 0x31FF (setReg 0 0xF025#16) (fun t => t.mem == [(0x3000, 0xF025#16)]) = true := by decide
/-- STI, L2.5. -/
theorem test_sti : after 0xB003 (fun s => setReg 0 0x1111#16 (poke 0x3004#16 0x5000#16 s))
    (fun t => wordAt 0x5000#16 t == 0x1111#16) = true := by decide
/-- STR, L2.5: the largest offset. -/
theorem test_str : after 0x729F (fun s => setReg 1 0x1234#16 (setReg 2 0x4000#16 s))
    (fun t => wordAt 0x401F#16 t == 0x1234#16) = true := by decide
/-- STR, L2.5: to KBSR, ignored, no poll. -/
theorem test_str_kbsr : after 0x7280 (fun s => setReg 1 0x1234#16 (setReg 2 0xFE00#16 (typed [0x41] s)))
    (fun t => t.mem == [(0x3000, 0x7280#16)] && t.input.queue == [.char 0x41]) = true := by decide
/-- JMP, L2.6. -/
theorem test_jmp : after 0xC0C0 (setReg 3 0x4000#16) (fun t => t.pc == 0x4000#16) = true := by decide
/-- JSR, L2.6: the most negative offset. -/
theorem test_jsr : after 0x4C00 id (fun t => getReg 7 t == 0x3001#16 && t.pc == 0x2C01#16) = true := by decide
/-- JSRR, L2.6. -/
theorem test_jsrr : after 0x4080 (setReg 2 0x5000#16)
    (fun t => getReg 7 t == 0x3001#16 && t.pc == 0x5000#16) = true := by decide
/-- JSRR R7, L2.6 (D10). -/
theorem test_jsrr_r7 : after 0x41C0 (setReg 7 0x5000#16)
    (fun t => getReg 7 t == 0x3001#16 && t.pc == 0x3001#16) = true := by decide
/-- TRAP, L2.7: vector 0x26. -/
theorem test_trap_unknown : after 0xF026 id (fun t => t.status == .invalidTrap 0x3000#16 0x26#8) = true := by decide
/-- GETC, L2.7: NUL. -/
theorem test_getc_nul : after 0xF020 (fun s => setCond .neg (typed [0x00] s))
    (fun t => getReg 0 t == 0#16 && t.cond == .zro && getReg 7 t == 0x3001#16) = true := by decide
/-- GETC, L2.7: input ended. -/
theorem test_getc_ended : after 0xF020 id (fun t => t.status == .ioError 0x3000#16 .input) = true := by decide
/-- OUT, L2.7: the high byte is ignored. -/
theorem test_out : after 0xF021 (setReg 0 0x1241#16) (fun t => t.output.written == [0x41]) = true := by decide
/-- PUTS, L2.7: it wraps. -/
theorem test_puts_wraps : after 0xF022
    (fun s => setReg 0 0xFFFF#16 (poke 0xFFFF#16 0x0041#16 (poke 0x0000#16 0x0042#16 s)))
    (fun t => t.output.written == [0x41, 0x42] && getReg 0 t == 0xFFFF#16) = true := by decide
/-- PUTS, L2.7: a zero low byte is no terminator. -/
theorem test_puts_zero_low_byte : after 0xF022
    (fun s => setReg 0 0x4000#16 (poke 0x4000#16 0x4100#16 (poke 0x4001#16 0x0041#16 s)))
    (fun t => t.output.written == [0x00, 0x41]) = true := by decide
/-- IN, L2.7, with a prompt of one byte. -/
theorem test_in : after 0xF023 (fun s => { typed [0x37] s with cfg := { Config.default with inPrompt := [0x3E] } })
    (fun t => t.output.written == [0x3E, 0x37] && getReg 0 t == 0x0037#16 && t.cond == .pos) = true := by decide
/-- PUTSP, L2.7: "Hey". -/
theorem test_putsp : after 0xF024
    (fun s => setReg 0 0x3020#16 (poke 0x3020#16 0x6548#16 (poke 0x3021#16 0x0079#16 s)))
    (fun t => t.output.written == [0x48, 0x65, 0x79]) = true := by decide
/-- PUTSP, R57 and R170 by hand: a word at KBSR reads 0x8000 (bytes 00 80), then the zero word at 0xFE01 ends it. -/
theorem test_putsp_kbsr : after 0xF024 (fun s => setReg 0 0xFE00#16 (typed [0x41] s))
    (fun t => t.output.written == [0x00, 0x80] && t.kbdrLatch == 0x0041#16 && t.input.queue == []) = true := by decide
/-- HALT, L2.7. -/
theorem test_halt : after 0xF025 id
    (fun t => t.status == .halted 0x3000#16 && t.output.written == Config.default.haltNotice) = true := by decide
/-- RES, L2.8. -/
theorem test_res : after 0xDFFF (setReg 0 0x1234#16)
    (fun t => t.status == .invalidOpcode 0x3000#16 0xDFFF#16 && getReg 0 t == 0x1234#16) = true := by decide
/-- RTI, L2.8. -/
theorem test_rti : after 0x8000 id (fun t => t.status == .invalidOpcode 0x3000#16 0x8000#16) = true := by decide
/-- The fetch through the device path, L2.9: it polls, reads 0x8000 and so ends the run. -/
theorem test_fetch_kbsr : after 0x0000 (fun s => setPc 0xFE00#16 (typed [0x41] s))
    (fun t => t.status == .invalidOpcode 0xFE00#16 0x8000#16 && t.kbdrLatch == 0x0041#16) = true := by decide
/-- The loader, L2.10: content past the top is a load error; so is a stream that ends mid-word. -/
theorem test_load : (imageContents ⟨[0x30, 0x00, 0x12, 0x34, 0x56, 0x78], false⟩ = some (0x3000#16, [0x1234#16, 0x5678#16])) ∧
    imageContents ⟨[0xFF, 0xFF, 0xAA, 0xAA, 0xBB, 0xBB], false⟩ = none ∧
    imageContents ⟨[0xFF, 0xFF, 0xAA, 0xAA], false⟩ = some (0xFFFF#16, [0xAAAA#16]) ∧
    imageContents ⟨[0x30, 0x00, 0x12], false⟩ = none := by decide

/-! Witnesses: for each obligation, a state and operands that meet its hypotheses together, at the edges of their
ranges where it has several clauses. -/

/-- Input that has not come yet. -/
def silent : State := setInput { State.reset.input with tail := .silent } State.reset
/-- Input that always has one more character. -/
def endless : State := setInput { State.reset.input with tail := .endless 0x41 } State.reset
/-- One character held, and a poll that is answered not ready, with one after it that is answered ready. -/
def polled : State := setInput { queue := [.char 0xFF], tail := .ended, polls := [false, true] } State.reset
/-- An error queued. -/
def failing : State := setInput { State.reset.input with queue := [.error] } State.reset
/-- An output that takes `k` more bytes. -/
def takes (k : Nat) : State := setOutput { written := [], failIn := some k } State.reset
/-- R1 and R2 at the two device registers. -/
def atDevices : State := setReg 1 0xFE00#16 (setReg 2 0xFE02#16 State.reset)
/-- A string of one word that wraps around the top of memory, then the zero word. -/
def wrapping : State := setReg 0 0xFFFF#16 (poke 0xFFFF#16 0x0041#16 (takes 1))
/-- A string that starts at KBSR with one character held: it reads 0x8000 there and the zero word at 0xFE01. -/
def stringAtKbsr : State := setReg 0 0xFE00#16 (typed [0x41] (takes 2))
/-- A string that starts at KBDR with a character latched. -/
def stringAtKbdr : State := setReg 0 0xFE02#16 (setLatch 0x0041#16 (takes 1))
/-- A string of one word before KBSR, where the poll fails. -/
def stringToFailingPoll : State := setReg 0 0xFDFF#16 (poke 0xFDFF#16 0x0041#16 (setOutput ⟨[], some 1⟩ failing))
/-- A packed word whose second byte fails. -/
def stringToFailingByte : State := setReg 0 0x4000#16 (poke 0x4000#16 0x6548#16 (takes 1))

theorem witness_DecodeEncodeRoundTrip :
    (Instr.trap 0xFF#8).wellFormed = true ∧ (Instr.br true true true 0x1FF).wellFormed = true := by decide

theorem witness_DecodeIgnoresUnusedBits :
    0x1042#16 &&& usedBits (decode 0x1042) = 0x105A#16 &&& usedBits (decode 0x1042) := by decide

theorem witness_ImageIsPlacedAtItsOrigin :
    (0xFFFF#16).toNat + [0xAAAA#16].length ≤ 0x10000 ∧ isDevice Config.default (0xFFFF#16 + BitVec.ofNat 16 0) = false ∧
    (0xFFFE#16).toNat < (0xFFFF#16).toNat := by decide

theorem witness_ImageWordsAtDevicesAreDropped :
    isDevice Config.default 0xFE00#16 = true ∧ isDevice Config.default 0xFE02#16 = true := by decide

theorem witness_UpdateFlagsRule : destField (.ldr 5 1 0) = some 5 ∧ atDevices.status = .running ∧
    ∃ t, exec (.ldr 5 1 0) atDevices = .next t ∧ t.status = .running := ⟨rfl, rfl, _, rfl, rfl⟩

theorem witness_BadImageIsLoadError :
    (⟨[0x30, 0x00], true⟩ : ImageStream).failed = true ∧ [0x30#8, 0x00#8, 0x12#8].length % 2 = 1 ∧ ([] : List Byte).length < 2 ∧
    ([0xFF#8, 0xFF#8, 0xAA#8, 0xAA#8, 0xBB#8, 0xBB#8] = imageBytes 0xFFFF [0xAAAA, 0xBBBB] ∧
      0x10000 < (0xFFFF#16).toNat + [0xAAAA#16, 0xBBBB#16].length) := by decide

theorem witness_KbsrReadPollsTheKeyboard_notReady : polled.input.polls.headD true = false := by decide
theorem witness_KbsrReadPollsTheKeyboard_ended : State.reset.input.queue = [] ∧ FiniteInput State.reset.input :=
  ⟨rfl, fun _ h => by cases h⟩
theorem witness_KbsrReadPollsTheKeyboard_silent : silent.input.queue = [] ∧ FiniteInput silent.input :=
  ⟨rfl, fun _ h => by cases h⟩
theorem witness_KbsrReadPollsTheKeyboard_ready :
    (typed [0xFF] State.reset).input.polls.headD true = true ∧
    Supplies (typed [0xFF] State.reset).input 0xFF State.reset.input := ⟨rfl, .inl ⟨[], rfl, rfl⟩⟩
theorem witness_KbsrReadPollsTheKeyboard_endless :
    endless.input.polls.headD true = true ∧ Supplies endless.input 0x41 endless.input := ⟨rfl, .inr ⟨rfl, rfl, rfl⟩⟩
theorem witness_KbsrReadPollsTheKeyboard_error :
    failing.input.polls.headD true = true ∧ failing.input.queue = .error :: [] := ⟨rfl, rfl⟩

theorem witness_KbdrReadsTheLastPolledCharacter :
    (typed [0x41] State.reset).cfg.distinctDevices = true ∧
    Supplies (typed [0x41] State.reset).input 0x41 State.reset.input ∧
    ∃ t, memRead 0x3000 (typed [0x41] State.reset).cfg.kbsrAddr (typed [0x41] State.reset) = .ok 0x8000#16 t :=
  ⟨by decide, .inl ⟨[], rfl, rfl⟩, _, rfl⟩

theorem witness_DeviceStoresAreIgnored :
    isDevice State.reset.cfg ((setPc 0xFE01#16 State.reset).pc + (0x1FF#9).signExtend 16) = true ∧
    isDevice State.reset.cfg ((setPc 0xFE01#16 State.reset).pc + (1#9).signExtend 16) = true ∧
    isDevice atDevices.cfg (getReg 1 atDevices + (0#6).signExtend 16) = true ∧
    isDevice atDevices.cfg (getReg 2 atDevices + (0#6).signExtend 16) = true := by decide
theorem witness_DeviceStoresAreIgnored_sti :
    memRead (0x3000#16 - 1#16) (0x3000#16 + (1#9).signExtend 16) (poke 0x3001#16 0xFE02#16 State.reset) =
      .ok 0xFE02#16 (poke 0x3001#16 0xFE02#16 State.reset) ∧
    isDevice (poke 0x3001#16 0xFE02#16 State.reset).cfg 0xFE02#16 = true := ⟨rfl, by decide⟩

theorem witness_ReadAfterWrite :
    State.reset.mem.wf = true ∧ isDevice State.reset.cfg 0xFE01#16 = false ∧ 0xFFFF#16 ≠ 0xFE01#16 ∧
    isDevice State.reset.cfg 0xFFFF#16 = false := by decide

theorem witness_LdLdrFollowTheReadPath_ld : ∃ off : BitVec 9, Instr.ld 2 0x100 = .ld 2 off ∧
    0x2F01#16 = (setPc 0x3001#16 State.reset).pc + off.signExtend 16 := ⟨0x100, rfl, by decide⟩
theorem witness_LdLdrFollowTheReadPath_ldr : ∃ (b : Reg) (off : BitVec 6), Instr.ldr 2 1 0 = .ldr 2 b off ∧
    0xFE00#16 = getReg b atDevices + off.signExtend 16 := ⟨1, 0, rfl, by decide⟩

theorem witness_LoadsFromPlainStorage :
    isDevice State.reset.cfg (State.reset.pc + (0x100#9).signExtend 16) = false ∧
    isDevice atDevices.cfg (getReg 1 atDevices + (1#6).signExtend 16) = false ∧
    isDevice State.reset.cfg (State.reset.pc + (1#9).signExtend 16) = false ∧
    isDevice State.reset.cfg (wordAt (State.reset.pc + (1#9).signExtend 16) State.reset) = false := by decide

theorem witness_StStrStoreOneWord : State.reset.mem.wf = true ∧
    (∃ off : BitVec 9, Instr.st 6 0x10 = .st 6 off ∧ 0x3010#16 = State.reset.pc + off.signExtend 16) ∧
    isDevice State.reset.cfg 0x3010#16 = false := ⟨by decide, ⟨0x10, rfl, by decide⟩, by decide⟩
theorem witness_StStrStoreOneWord_device : atDevices.mem.wf = true ∧
    (∃ (b : Reg) (off : BitVec 6), Instr.str 6 2 0 = .str 6 b off ∧ 0xFE02#16 = getReg b atDevices + off.signExtend 16) ∧
    isDevice atDevices.cfg 0xFE02#16 = true := ⟨by decide, ⟨2, 0, rfl, by decide⟩, by decide⟩

theorem witness_StiStoresThroughThePointer : State.reset.mem.wf = true := by decide

theorem witness_StiThroughPlainPointer :
    (poke 0x3003#16 0x5000#16 State.reset).mem.wf = true ∧
    isDevice State.reset.cfg (State.reset.pc + (3#9).signExtend 16) = false ∧
    isDevice State.reset.cfg (wordAt (State.reset.pc + (3#9).signExtend 16) (poke 0x3003#16 0x5000#16 State.reset)) = false := by
  decide

theorem witness_FetchSeesTheStore : State.reset.mem.wf = true ∧
    isDevice State.reset.cfg (State.reset.pc + (0#9).signExtend 16) = false := by decide

theorem witness_JsrrResultAndFrame : (6 : Reg) ≠ 7 := by decide

theorem witness_UnknownVectorIsInvalidTrap :
    0x1F#8 ∉ recognisedVectors ∧ 0x26#8 ∉ recognisedVectors ∧ 0x00#8 ∉ recognisedVectors ∧ 0xFF#8 ∉ recognisedVectors := by decide

theorem witness_GetcReadsOneCharacter : Supplies (typed [0x00] State.reset).input 0x00 State.reset.input :=
  .inl ⟨[], rfl, rfl⟩

theorem witness_OutWritesTheLowByte : Takes (takes 1).output 1 ∧ (takes 0).output.failIn = some 0 :=
  ⟨fun k h => by cases h; decide, rfl⟩

theorem witness_PutsWritesTheString : HoldsAt (getReg 0 wrapping) ([0x0041#16] ++ [0#16]) wrapping ∧
    0#16 ∉ [0x0041#16] ∧ Takes wrapping.output [0x0041#16].length :=
  ⟨by unfold HoldsAt; decide, by decide, fun k h => by cases h; decide⟩
theorem witness_PutsWritesTheString_empty : HoldsAt (getReg 0 State.reset) ([] ++ [0#16]) State.reset ∧
    Takes State.reset.output 0 := ⟨by unfold HoldsAt; decide, fun k h => by cases h⟩
theorem witness_PutsWritesTheString_kbsr : ∃ m,
    ReadsFrom (stringAtKbsr.pc - 1#16) (getReg 0 stringAtKbsr) ([0x8000#16] ++ [0#16]) stringAtKbsr m ∧
    0#16 ∉ [0x8000#16] ∧ Takes stringAtKbsr.output [0x8000#16].length :=
  ⟨_, ⟨_, rfl, _, rfl, rfl⟩, by decide, fun k h => by cases h; decide⟩
theorem witness_PutsWritesTheString_kbsr_notReady : ∃ m,
    ReadsFrom (State.reset.pc - 1#16) (getReg 0 (setReg 0 0xFE00#16 State.reset)) ([] ++ [0#16])
      (setReg 0 0xFE00#16 State.reset) m := ⟨_, _, rfl, rfl⟩
theorem witness_PutsWritesTheString_kbdr : ∃ m,
    ReadsFrom (stringAtKbdr.pc - 1#16) (getReg 0 stringAtKbdr) ([0x0041#16] ++ [0#16]) stringAtKbdr m ∧
    0#16 ∉ [0x0041#16] ∧ Takes stringAtKbdr.output [0x0041#16].length :=
  ⟨_, ⟨_, rfl, _, rfl, rfl⟩, by decide, fun k h => by cases h; decide⟩

theorem witness_PutspWritesThePackedString : HoldsAt (getReg 0 wrapping) ([0x0041#16] ++ [0#16]) wrapping ∧
    0#16 ∉ [0x0041#16] ∧
    Takes wrapping.output ([0x0041#16].flatMap fun w =>
      w.extractLsb' 0 8 :: if w.extractLsb' 8 8 = 0#8 then [] else [w.extractLsb' 8 8]).length :=
  ⟨by unfold HoldsAt; decide, by decide, fun k h => by cases h; decide⟩
theorem witness_PutspWritesThePackedString_kbsr : ∃ m,
    ReadsFrom (stringAtKbsr.pc - 1#16) (getReg 0 stringAtKbsr) ([0x8000#16] ++ [0#16]) stringAtKbsr m ∧
    0#16 ∉ [0x8000#16] ∧ Takes stringAtKbsr.output ([0x8000#16].flatMap fun w =>
      w.extractLsb' 0 8 :: if w.extractLsb' 8 8 = 0#8 then [] else [w.extractLsb' 8 8]).length :=
  ⟨_, ⟨_, rfl, _, rfl, rfl⟩, by decide, fun k h => by cases h; decide⟩

theorem witness_StringsEndOnFiniteInput : (Instr.puts = .puts ∨ Instr.puts = .putsp) ∧ FiniteInput silent.input :=
  ⟨.inl rfl, fun _ h => by cases h⟩

theorem witness_InPromptsReadsAndEchoes : Supplies (typed [0x37] (takes 20)).input 0x37 State.reset.input ∧
    Takes (typed [0x37] (takes 20)).output ((typed [0x37] (takes 20)).cfg.inPrompt.length + 1) :=
  ⟨.inl ⟨[], rfl, rfl⟩, fun k h => by cases h; decide⟩

theorem witness_NoInputIsIoError_ended : Fails State.reset.input ∧
    Takes State.reset.output State.reset.cfg.inPrompt.length := ⟨.inr ⟨rfl, rfl⟩, fun k h => by cases h⟩
theorem witness_NoInputIsIoError_error : Fails failing.input ∧
    Takes failing.output failing.cfg.inPrompt.length := ⟨.inl ⟨[], rfl⟩, fun k h => by cases h⟩

theorem witness_NoInputIsIoError_string : StringService .puts putsBytes ∧ (∃ m e,
    ReadsFrom (stringToFailingPoll.pc - 1#16) (getReg 0 stringToFailingPoll) [0x0041#16] stringToFailingPoll m ∧
    memRead (stringToFailingPoll.pc - 1#16) (getReg 0 stringToFailingPoll + BitVec.ofNat 16 1) m = .ended e) ∧
    0#16 ∉ [0x0041#16] ∧ Takes stringToFailingPoll.output ([0x0041#16].flatMap putsBytes).length :=
  ⟨.inl ⟨rfl, rfl⟩, ⟨_, _, ⟨_, rfl, rfl⟩, rfl⟩, by decide, fun k h => by cases h; decide⟩

theorem witness_OutputFailureIsIoError_puts : (setOutput ⟨[], some 0⟩ wrapping).output.failIn = some 0 ∧
    StringService .puts putsBytes ∧ (∃ m, ReadsFrom (wrapping.pc - 1#16) (getReg 0 wrapping) ([] ++ [0x0041#16])
      (setOutput ⟨[], some 0⟩ wrapping) m) ∧ 0#16 ∉ [0x0041#16] ∧
    ([].flatMap putsBytes).length ≤ 0 ∧ 0 < ([0x0041#16].flatMap putsBytes).length :=
  ⟨rfl, .inl ⟨rfl, rfl⟩, ⟨_, _, rfl, rfl⟩, by decide, by decide, by decide⟩
theorem witness_OutputFailureIsIoError_putsp : stringToFailingByte.output.failIn = some 1 ∧
    StringService .putsp putspBytes ∧ (∃ m, ReadsFrom (stringToFailingByte.pc - 1#16) (getReg 0 stringToFailingByte)
      ([] ++ [0x6548#16]) stringToFailingByte m) ∧ 0#16 ∉ [0x6548#16] ∧
    ([].flatMap putspBytes).length ≤ 1 ∧ 1 < ([0x6548#16].flatMap putspBytes).length :=
  ⟨rfl, .inr ⟨rfl, rfl⟩, ⟨_, _, rfl, rfl⟩, by decide, by decide, by decide⟩
theorem witness_OutputFailureIsIoError_prompt :
    (takes 18).output.failIn = some 18 ∧ 18 < (takes 18).cfg.inPrompt.length := by decide
theorem witness_OutputFailureIsIoError_echo :
    (typed [0x37] (takes 19)).output.failIn = some 19 ∧ 19 = (typed [0x37] (takes 19)).cfg.inPrompt.length ∧
    Supplies (typed [0x37] (takes 19)).input 0x37 State.reset.input := ⟨rfl, rfl, .inl ⟨[], rfl, rfl⟩⟩
theorem witness_OutputFailureIsIoError_notice :
    (takes 4).output.failIn = some 4 ∧ 4 < (takes 4).cfg.haltNotice.length := by decide

theorem witness_HaltEndsTheRun : Takes (takes 5).output (takes 5).cfg.haltNotice.length :=
  fun k h => by cases h; decide
theorem witness_HaltEndsTheRun_only : Instr.halt.wellFormed = true ∧ State.reset.status = .running ∧
    ∃ t, exec .halt State.reset = .next t ∧ t.status = .halted 0x2FFF#16 := ⟨rfl, rfl, _, rfl, rfl⟩

theorem witness_WaitingDoesNotChangeTheResult_fails : ∃ t, exec .inp silent = .next t ∧ t.status = .running ∧
    Fails (inputArrives .error t).input ∧ Fails (inputEnds t).input := ⟨_, rfl, rfl, .inl ⟨[], rfl⟩, .inr ⟨rfl, rfl⟩⟩

theorem witness_InputWaitHoldsTheStep : Silent silent.input ∧ silent.status = .running ∧
    Takes silent.output silent.cfg.inPrompt.length := ⟨⟨rfl, rfl⟩, rfl, fun k h => by cases h⟩

theorem witness_WaitingDoesNotChangeTheResult : Silent silent.input ∧ silent.status = .running ∧ (Instr.getc = .getc ∨ Instr.getc = .inp) ∧
    (Instr.inp = .getc ∨ Instr.inp = .inp) ∧
    (∃ t, exec .getc silent = .next t ∧ t.status = .running) ∧ ∃ t, exec .inp silent = .next t ∧ t.status = .running :=
  ⟨⟨rfl, rfl⟩, rfl, .inl rfl, .inr rfl, ⟨_, rfl, rfl⟩, _, rfl, rfl⟩

theorem witness_EndOfRunWritesNoRegisterButR7 : State.reset.status = .running ∧
    (∃ t, exec (.res 0xFFF) State.reset = .next t ∧ t.status ≠ .running ∧ t.status = .invalidOpcode 0x2FFF#16 0xDFFF#16) ∧
    (∃ t, exec (.trap 0x26) State.reset = .next t ∧ t.status ≠ .running ∧ t.status = .invalidTrap 0x2FFF#16 0x26#8) ∧
    ∃ t, exec .inp State.reset = .next t ∧ t.status ≠ .running :=
  ⟨rfl, ⟨_, rfl, nofun, rfl⟩, ⟨_, rfl, nofun, rfl⟩, _, rfl, nofun⟩

theorem witness_ReservedWordEndsTheRun :
    (poke 0x3000#16 0xDFFF#16 State.reset).status = .running ∧ (poke 0x3000#16 0xDFFF#16 State.reset).wait = none ∧
    memRead 0x3000#16 0x3000#16 (poke 0x3000#16 0xDFFF#16 State.reset) = .ok 0xDFFF#16 (poke 0x3000#16 0xDFFF#16 State.reset) ∧
    ∃ u, decode 0xDFFF#16 = .res u := ⟨rfl, rfl, rfl, 0xFFF, by decide⟩
theorem witness_ReservedWordEndsTheRun_kbsr :
    (setPc 0xFE00#16 (typed [0x41] State.reset)).status = .running ∧
    (setPc 0xFE00#16 (typed [0x41] State.reset)).wait = none ∧
    (∃ m, memRead 0xFE00#16 0xFE00#16 (setPc 0xFE00#16 (typed [0x41] State.reset)) = .ok 0x8000#16 m) ∧
    ∃ u, decode 0x8000#16 = .rti u := ⟨rfl, rfl, ⟨_, rfl⟩, 0, by decide⟩

theorem witness_StepRunsTheDecodedInstruction :
    State.reset.status = .running ∧ State.reset.wait = none ∧
    memRead State.reset.pc State.reset.pc State.reset = .ok 0#16 State.reset ∧
    isDevice State.reset.cfg State.reset.pc = false ∧ (Instr.br false false false 0).wellFormed = true ∧
    wordAt State.reset.pc State.reset = encode (.br false false false 0) :=
  ⟨rfl, rfl, rfl, by decide, rfl, by decide⟩
theorem witness_StepRunsTheDecodedInstruction_over : (setStatus (.halted 0x3000#16) State.reset).status ≠ .running := by
  decide
theorem witness_StepRunsTheDecodedInstruction_failingFetch :
    (setPc 0xFE00#16 failing).status = .running ∧ (setPc 0xFE00#16 failing).wait = none ∧
    ∃ m, memRead 0xFE00#16 0xFE00#16 (setPc 0xFE00#16 failing) = .ended m := ⟨rfl, rfl, _, rfl⟩

theorem witness_PlacedWordIsExecuted : (poke 0x3000#16 0x1042#16 State.reset).mem.wf = true := by decide

theorem witness_OverIsFinal : (setStatus .loadError State.reset).status ≠ .running ∧
    Reaches (setStatus .loadError State.reset) (setStatus .loadError State.reset) := ⟨by decide, .refl⟩

theorem witness_RunningMachineSteps : silent.status = .running ∧ FiniteInput silent.input :=
  ⟨rfl, fun _ h => by cases h⟩

theorem witness_BootInv : Config.default.distinctDevices = true := by decide

theorem witness_StepKeepsInv : State.reset.Inv ∧ ∃ t, step State.reset = .next t :=
  ⟨by constructor <;> decide, _, rfl⟩

theorem witness_OnlyStoresWriteMemory : (∀ sr off, Instr.lea 0 0 ≠ .st sr off) ∧ (∀ sr off, Instr.lea 0 0 ≠ .sti sr off) ∧
    (∀ sr b off, Instr.lea 0 0 ≠ .str sr b off) ∧ ∃ t, exec (.lea 0 0) State.reset = .next t :=
  ⟨nofun, nofun, nofun, _, rfl⟩

theorem witness_OnlyDestinationsAreWritten :
    (∃ t, exec (.addImm 3 3 1) State.reset = .next t ∧ t.status = .running) ∧
    ∃ t, exec (.rti 0) State.reset = .next t ∧ t.status ≠ .running := ⟨⟨_, rfl, rfl⟩, _, rfl, nofun⟩

theorem witness_FlagsFollowTheDestination :
    (Instr.ld 0 0).wellFormed = true ∧ State.reset.status = .running ∧ (∃ t, exec (.ld 0 0) State.reset = .next t ∧
      t.status = .running) ∧ (∃ t, exec .getc State.reset = .next t ∧ t.status ≠ .running) ∧
    ∃ t, exec .inp silent = .next t ∧ t.wait ≠ none :=
  ⟨rfl, rfl, ⟨_, rfl, rfl⟩, ⟨_, rfl, nofun⟩, _, rfl, nofun⟩

theorem witness_OnlyJumpsMovePc : (∀ n z p off, Instr.st 0 0 ≠ .br n z p off) ∧ (∀ b, Instr.st 0 0 ≠ .jmp b) ∧
    (∀ off, Instr.st 0 0 ≠ .jsr off) ∧ (∀ b, Instr.st 0 0 ≠ .jsrr b) ∧
    ∃ t, exec (.st 0 0) State.reset = .next t ∧ t.status = .running := ⟨nofun, nofun, nofun, nofun, _, rfl, rfl⟩

theorem witness_TerminalConditionsAndTheirRaisers : State.reset.status = .running ∧ Instr.halt.wellFormed = true ∧
    ∃ t, exec .halt State.reset = .next t ∧ t.status = .halted 0x2FFF#16 := ⟨rfl, rfl, _, rfl, rfl⟩

theorem witness_OutputOnlyGrowsAlongARun : ∃ t, Reaches (setStatus .running State.reset) t ∧ Steps State.reset t :=
  ⟨_, .single rfl, rfl⟩

end Sys2Proof.Tests
end

/-! PROOFS. Sign extension as the spec writes it (00_scope.md R9), for a field of any width. -/

namespace Sys2Proof.Machine

/-- R9, sign bit 0: the bits above the field are 0. -/
theorem sext_eq_setWidth_of_msb_false {n : Nat} {v : BitVec n} (hpos : v.msb = false) :
    sext v = v.setWidth 16 :=
  BitVec.signExtend_eq_setWidth_of_msb_false hpos

/-- R9, sign bit 1: inside the field the shifted ones are 0 and the bits are the field's, above it every bit is 1. -/
theorem sext_eq_or_ones_of_msb_true {n : Nat} {v : BitVec n} (hneg : v.msb = true) :
    sext v = v.setWidth 16 ||| (0xFFFF#16 <<< n) := by
  rw [sext]
  ext i hi
  by_cases hfield : i < n
  · simp [BitVec.getElem_signExtend, hfield]
  · have hone : (0xFFFF#16)[i - n] = true := BitVec.getElem_allOnes ..
    simp [BitVec.getElem_signExtend, hfield, hneg, hone]

/-- R9 at every width, with the sign bit read as bit `n - 1`. -/
theorem sext_eq_ite {n : Nat} (v : BitVec n) :
    sext v = if v.getLsbD (n - 1) then v.setWidth 16 ||| (0xFFFF#16 <<< n) else v.setWidth 16 := by
  rw [← BitVec.msb_eq_getLsbD_last]
  split
  next hneg => exact sext_eq_or_ones_of_msb_true hneg
  next hpos => exact sext_eq_setWidth_of_msb_false (Bool.eq_false_of_not_eq_true hpos)

/-- Settles O5: the four widths are instances of `sext_eq_ite`, and widening a field loses no bit. -/
theorem signExtensionRule : Obligations.SignExtensionRule :=
  ⟨sext_eq_ite, sext_eq_ite, sext_eq_ite, sext_eq_ite,
    fun _ hn _ => BitVec.toNat_setWidth_of_le (Nat.le_of_lt hn)⟩

end Sys2Proof.Machine

/-! PROOFS. The flags of a value, and how every opcode with a destination field ends (10_state.md R27). -/

namespace Sys2Proof.Machine

/-! The three cases of R27. -/

/-- The sign bit of a word, read as a number. -/
theorem getLsbD_fifteen_iff {v : Word} : v.getLsbD 15 = true ↔ 0x8000 ≤ v.toNat := by
  have hmsb : v.getLsbD 15 = decide (2 ^ 15 ≤ v.toNat) :=
    (BitVec.msb_eq_getLsbD_last v).symm.trans (BitVec.msb_eq_decide v)
  rw [hmsb]
  exact decide_eq_true_iff

theorem condOf_of_sign {v : Word} (hsign : 0x8000 ≤ v.toNat) : condOf v = .neg :=
  if_pos (getLsbD_fifteen_iff.2 hsign)

theorem condOf_zero : condOf 0#16 = .zro := rfl

theorem condOf_of_pos {v : Word} (hpos : 0 < v.toNat) (hlow : v.toNat < 0x8000) : condOf v = .pos := by
  have hsign : ¬ v.getLsbD 15 = true := fun h => Nat.not_le.2 hlow (getLsbD_fifteen_iff.1 h)
  have hzero : v ≠ 0#16 := fun h => by simp [h] at hpos
  rw [condOf, if_neg hsign, if_neg hzero]

theorem flagsMatch_condOf (v : Word) : FlagsMatch v (condOf v) :=
  ⟨condOf_of_sign, fun hzero => BitVec.eq_of_toNat_eq (y := 0#16) hzero ▸ condOf_zero, condOf_of_pos⟩

/-- `update_flags` moves the flags alone. -/
theorem updateFlags_frame (i : Reg) (s : State) :
    KeepsRegs [] s (updateFlags i s) ∧ (updateFlags i s).pc = s.pc ∧ KeepsOutside s (updateFlags i s) :=
  ⟨fun _ _ => rfl, rfl, fun _ _ => rfl, ⟨rfl, rfl, rfl⟩, rfl, rfl, rfl⟩

/-! The end of an opcode with a destination field. -/

/-- From `s`, `t` has the destination written and the flags updated as the last acts, on a state `m` that only reads
through the read path have moved; or a poll of KBSR has failed before anything was written. -/
def EndsByWriteDest (dr : Reg) (s t : State) : Prop :=
  (∃ v m, IoOnly s m ∧ m.status = s.status ∧ t = writeDest dr v m) ∨
  (IoOnly s t ∧ t.status = .ioError (instrAddr s) .input)

/-- ADD, AND, NOT and LEA: nothing is read from memory before the write. -/
theorem EndsByWriteDest.of_next {dr : Reg} {v : Word} {s t : State}
    (h : (.next (writeDest dr v s) : Host.Outcome State Fault Refusal) = .next t) : EndsByWriteDest dr s t := by
  cases h
  exact .inl ⟨v, s, .refl s, rfl, rfl⟩

/-- What was read before, by the same instruction, changes nothing in how it ends. -/
theorem EndsByWriteDest.after_memRead {dr : Reg} {a addr v : Word} {s m t : State} (hread : memRead a addr s = .ok v m)
    (h : EndsByWriteDest dr m t) : EndsByWriteDest dr s t := by
  obtain ⟨hio, hstatus, -⟩ := memRead_ok_ioOnly hread
  have haddr : instrAddr m = instrAddr s := by simp [hio.pc]
  rcases h with ⟨w, n, hn, hns, rfl⟩ | ⟨ht, hts⟩
  · exact .inl ⟨w, n, hio.trans hn, hns.trans hstatus, rfl⟩
  · exact .inr ⟨hio.trans ht, haddr ▸ hts⟩

theorem EndsByWriteDest.of_failed_memRead {dr : Reg} {addr : Word} {s t : State}
    (hread : memRead (instrAddr s) addr s = .ended t) : EndsByWriteDest dr s t := by
  obtain ⟨hio, hstatus, -, -⟩ := memRead_ended_ioOnly hread
  exact .inr ⟨hio, hstatus⟩

/-- The end LD, LDI and LDR share. -/
theorem loadDest_endsByWriteDest {dr : Reg} {addr : Word} {s t : State}
    (h : (loadDest dr addr s).outcome none = .next t) : EndsByWriteDest dr s t := by
  rcases loadDest_cases h with ⟨v, m, hread, rfl⟩ | hread
  · exact .after_memRead hread (.of_next rfl)
  · exact .of_failed_memRead hread

theorem execLdi_endsByWriteDest {dr : Reg} {off : BitVec 9} {s t : State} (h : execLdi dr off s = .next t) :
    EndsByWriteDest dr s t := by
  rcases execLdi_cases h with ⟨ptr, m, hptr, ⟨v, n, hread, rfl⟩ | hread⟩ | hptr
  · exact .after_memRead hptr (.after_memRead hread (.of_next rfl))
  · have haddr : instrAddr m = instrAddr s := by simp [(memRead_ok_ioOnly hptr).1.pc]
    exact .after_memRead hptr (.of_failed_memRead (haddr ▸ hread))
  · exact .of_failed_memRead hptr

/-- Every opcode with a destination field ends in one of the two ways. -/
theorem exec_endsByWriteDest {i : Instr} {dr : Reg} {s t : State} (hdest : destField i = some dr)
    (h : exec i s = .next t) : EndsByWriteDest dr s t := by
  match i, hdest with
  | .addReg _ _ _, rfl | .addImm _ _ _, rfl | .andReg _ _ _, rfl | .andImm _ _ _, rfl | .not _ _, rfl
  | .lea _ _, rfl => exact .of_next h
  | .ld _ _, rfl | .ldr _ _ _, rfl => exact loadDest_endsByWriteDest h
  | .ldi _ _, rfl => exact execLdi_endsByWriteDest h

/-- Settles O10: the three cases are those of `condOf`, and an opcode with a destination field that completes has ended
by `writeDest`, whose last act is `updateFlags`. -/
theorem updateFlagsRule : Obligations.UpdateFlagsRule := by
  refine ⟨fun i s => ⟨flagsMatch_condOf (getReg i s), updateFlags_frame i s⟩, ?_⟩
  intro i dr s t hdest _ hexec hrunning
  rcases exec_endsByWriteDest hdest hexec with ⟨v, m, hio, -, rfl⟩ | ⟨-, hended⟩
  · exact ⟨v, m, rfl, hio.cond, hio.regs⟩
  · rw [hended] at hrunning
    cases hrunning

end Sys2Proof.Machine

/-! PROOFS. Stores, and the placement of an image by a run of stores (20_memory.md R53, R59, R63 to R66). -/

namespace Sys2Proof.Machine

/-! Stores, as what they write where. -/

theorem exec_st (sr : Reg) (off : BitVec 9) (s : State) :
    exec (.st sr off) s = .next (memWrite (s.pc + off.signExtend 16) (getReg sr s) s) := rfl

theorem exec_str (sr b : Reg) (off : BitVec 6) (s : State) :
    exec (.str sr b off) s = .next (memWrite (getReg b s + off.signExtend 16) (getReg sr s) s) := rfl

/-- STI whose pointer read succeeds stores through the pointer, in the state that read left. -/
theorem exec_sti_of_pointer {sr : Reg} {off : BitVec 9} {ptr : Word} {s m : State}
    (hread : memRead (s.pc - 1#16) (s.pc + off.signExtend 16) s = .ok ptr m) :
    exec (.sti sr off) s = .next (memWrite ptr (getReg sr m) m) := by
  have hptr : readPointer off s = .ok ptr m := hread
  rw [exec, execSti, hptr, ok_andThen, ok_outcome]

/-- Settles O18: each of the three ends in one `memWrite`, and `memWrite` to a device address is the identity. -/
theorem deviceStoresAreIgnored : Obligations.DeviceStoresAreIgnored := by
  refine fun s => ⟨fun sr off hdev => ?_, fun sr b off hdev => ?_, fun sr off m ptr hread hdev => ?_⟩
  · rw [exec_st, memWrite_device hdev]
  · rw [exec_str, memWrite_device hdev]
  · rw [exec_sti_of_pointer hread, memWrite_device hdev]

@[simp] theorem memWrite_cfg (addr v : Word) (s : State) : (memWrite addr v s).cfg = s.cfg := by
  obtain ⟨m, hm⟩ := memWrite_eq addr v s
  rw [hm, setMem_cfg]

/-- R52: a plain address holds the word last written to it. -/
theorem wordAt_memWrite_same {addr v : Word} {s : State} (hwf : s.mem.wf = true) (hplain : isDevice s.cfg addr = false) :
    wordAt addr (memWrite addr v s) = v := by
  rw [memWrite_plain hplain]
  exact read_write_same hwf addr.toNat v

/-! The bytes of an image, read as words (R63, R64). -/

/-- A word's two bytes, high byte first, are the word. -/
theorem highByte_append_lowByte (w : Word) : (w.extractLsb' 8 8 ++ w.extractLsb' 0 8 : BitVec 16) = w :=
  BitVec.extractLsb'_append_extractLsb' (w := 8) (len := 8)

theorem imageBytes_cons (origin w : Word) (ws : List Word) :
    imageBytes origin (w :: ws) = origin.extractLsb' 8 8 :: origin.extractLsb' 0 8 :: imageBytes w ws := rfl

/-- The loader reads back the words an image was written from, with no byte left over. -/
theorem imageWords_imageBytes (origin : Word) (ws : List Word) :
    imageWords (imageBytes origin ws) = (origin :: ws, false) := by
  induction ws generalizing origin with
  | nil => simp [imageBytes, imageWords, highByte_append_lowByte]
  | cons w ws ih => rw [imageBytes_cons, imageWords, ih, highByte_append_lowByte]

/-- An image that fits below the top of memory is no load error. -/
theorem imageContents_imageBytes {origin : Word} {ws : List Word} (hfit : origin.toNat + ws.length ≤ 0x10000) :
    imageContents ⟨imageBytes origin ws, false⟩ = some (origin, ws) := by
  simp [imageContents, imageWords_imageBytes, hfit]

/-! The placement (R66). -/

theorem add_one_add_ofNat (addr : Word) (k : Nat) :
    addr + 1#16 + BitVec.ofNat 16 k = addr + BitVec.ofNat 16 (k + 1) := by
  rw [BitVec.add_assoc, Nat.add_comm k 1, BitVec.ofNat_add]

/-- The placement changes memory alone. -/
theorem placeWords_eq (addr : Word) (ws : List Word) (s : State) : ∃ m, placeWords addr ws s = setMem m s := by
  induction ws generalizing addr s with
  | nil => exact ⟨s.mem, rfl⟩
  | cons w ws ih =>
    obtain ⟨m, hm⟩ := memWrite_eq addr w s
    obtain ⟨n, hn⟩ := ih (addr + 1#16) (setMem m s)
    exact ⟨n, by rw [placeWords, hm, hn]; rfl⟩

/-- The placement leaves every address alone that none of its words is aimed at. -/
theorem wordAt_placeWords_other {addr b : Word} {ws : List Word} {s : State}
    (hother : ∀ k < ws.length, b ≠ addr + BitVec.ofNat 16 k) : wordAt b (placeWords addr ws s) = wordAt b s := by
  induction ws generalizing addr s with
  | nil => rfl
  | cons w ws ih =>
    have hhead : b ≠ addr := by simpa using hother 0 (Nat.zero_lt_succ _)
    have htail : ∀ k < ws.length, b ≠ addr + 1#16 + BitVec.ofNat 16 k := fun k hk =>
      add_one_add_ofNat addr k ▸ hother (k + 1) (Nat.succ_lt_succ hk)
    rw [placeWords, ih htail, wordAt_memWrite_other hhead]

/-- A list no longer than the address space is placed without overlap: each word stands at its own plain address. -/
theorem wordAt_placeWords {addr : Word} {ws : List Word} {s : State} {k : Nat} (hwf : s.mem.wf = true)
    (hlen : ws.length ≤ 0x10000) (hk : k < ws.length) (hplain : isDevice s.cfg (addr + BitVec.ofNat 16 k) = false) :
    wordAt (addr + BitVec.ofNat 16 k) (placeWords addr ws s) = ws[k] := by
  induction ws generalizing addr s k with
  | nil => cases hk
  | cons w ws ih =>
    rw [List.length_cons] at hlen
    cases k with
    | zero =>
      rw [BitVec.add_zero] at hplain ⊢
      have hlater : ∀ j < ws.length, addr ≠ addr + 1#16 + BitVec.ofNat 16 j := by
        intro j hj
        bv_omega
      rw [placeWords, wordAt_placeWords_other hlater, wordAt_memWrite_same hwf hplain, List.getElem_cons_zero]
    | succ k =>
      rw [← add_one_add_ofNat] at hplain ⊢
      exact ih (memWrite_wf hwf) (by omega) (Nat.lt_of_succ_lt_succ hk) (by rwa [memWrite_cfg])

/-! The load, from reset to the first step (R66, R215). -/

/-- The reset state with the parameters and collaborators of a run: where `boot` starts. -/
def resetWith (cfg : Config) (inp : InputPort) (out : OutputPort) : State :=
  { State.reset with cfg := cfg, input := inp, output := out }

theorem boot_eq (cfg : Config) (inp : InputPort) (out : OutputPort) (img : ImageStream) :
    boot cfg inp out img = loadImage img (resetWith cfg inp out) := rfl

theorem wordAt_resetWith (cfg : Config) (inp : InputPort) (out : OutputPort) (addr : Word) :
    wordAt addr (resetWith cfg inp out) = 0 := rfl

theorem getReg_resetWith (cfg : Config) (inp : InputPort) (out : OutputPort) (r : Reg) :
    getReg r (resetWith cfg inp out) = 0 :=
  Vector.getElem_replicate r.isLt

theorem boot_imageBytes (cfg : Config) (inp : InputPort) (out : OutputPort) {origin : Word} {ws : List Word}
    (hfit : origin.toNat + ws.length ≤ 0x10000) :
    boot cfg inp out ⟨imageBytes origin ws, false⟩ =
      setStatus .running (placeWords origin ws (resetWith cfg inp out)) := by
  rw [boot_eq, loadImage, imageContents_imageBytes hfit]

/-- Settles O7: the load of an image that fits is one `placeWords` on the reset state, which moves nothing but memory. -/
theorem imageIsPlacedAtItsOrigin : Obligations.ImageIsPlacedAtItsOrigin := by
  intro cfg inp out origin ws hfit
  obtain ⟨m, hm⟩ := placeWords_eq origin ws (resetWith cfg inp out)
  rw [boot_imageBytes cfg inp out hfit]
  refine ⟨rfl, by rw [hm]; rfl, fun r => ?_, fun k hk hplain => ?_, fun addr hout => ?_⟩
  · rw [getReg_setStatus, hm, getReg_setMem, getReg_resetWith]
  · exact wordAt_placeWords rfl (by omega) hk hplain
  · have hother : ∀ k < ws.length, addr ≠ origin + BitVec.ofNat 16 k := by
      intro k hk
      bv_omega
    exact (wordAt_placeWords_other hother).trans (wordAt_resetWith cfg inp out addr)

end Sys2Proof.Machine

/-! PROOFS. BR: its one test and its one effect (40_branch.md R105, R106). -/

namespace Sys2Proof.Machine

/-- A state of which only `pc` has moved keeps everything else. -/
theorem setPc_frame (v : Word) (s : State) : KeepsRegs [] s (setPc v s) ∧ KeepsOutside s (setPc v s) :=
  ⟨fun _ _ => rfl, fun _ _ => rfl, ⟨rfl, rfl, rfl⟩, rfl, rfl, rfl⟩

theorem setPc_self (s : State) : setPc s.pc s = s := rfl

/-- R106: the test is for a nonzero intersection. -/
theorem branchTaken_iff {n z p : Bool} {s : State} :
    branchTaken n z p s = true ↔ s.cond.bits &&& (BitVec.ofBool n ++ BitVec.ofBool z ++ BitVec.ofBool p) ≠ 0#3 :=
  bne_iff_ne

/-- R105: taken or not, BR completes and moves at most `pc`. -/
theorem exec_br (n z p : Bool) (off : BitVec 9) (s : State) :
    exec (.br n z p off) s =
      .next (setPc (if branchTaken n z p s then s.pc + off.signExtend 16 else s.pc) s) := by
  rw [exec, execBr]
  split
  · rfl
  · rw [setPc_self]

/-- Settles O11: BR is one `setPc`, taken or not, so the frame is that of `setPc`. -/
theorem brBranchesOnNonzeroIntersection : Obligations.BrBranchesOnNonzeroIntersection := by
  intro n z p off s
  refine ⟨_, exec_br n z p off s, ?_, rfl, setPc_frame _ s⟩
  simp only [setPc_pc, branchTaken_iff]

end Sys2Proof.Machine

/-! PROOFS. ADD, AND and NOT: each is one write of a destination register (41_operate.md R110 to R112). -/

namespace Sys2Proof.Machine

/-! What one write of a destination register does. -/

@[simp] theorem getReg_writeDest_same (dr : Reg) (v : Word) (s : State) : getReg dr (writeDest dr v s) = v :=
  getReg_setReg_same s dr v

theorem writeDest_keepsRegs (dr : Reg) (v : Word) (s : State) : KeepsRegs [dr] s (writeDest dr v s) :=
  fun _ hr => getReg_setReg_ne s (List.ne_of_not_mem_cons hr) v

theorem writeDest_keepsOutside (dr : Reg) (v : Word) (s : State) : KeepsOutside s (writeDest dr v s) :=
  ⟨fun _ _ => rfl, ⟨rfl, rfl, rfl⟩, rfl, rfl, rfl⟩

/-- R27: the flags a destination write leaves are those of the value the destination then has. -/
theorem writeDest_flagsMatch (dr : Reg) (v : Word) (s : State) :
    FlagsMatch (getReg dr (writeDest dr v s)) (writeDest dr v s).cond := by
  rw [getReg_writeDest_same, writeDest_cond]
  exact flagsMatch_condOf v

/-- An instruction that is one write of `v` to `dr` has `v` as its result, sets the flags by it, and moves nothing
else: the form of the claims about the operate instructions. -/
theorem resultAndFrame_of_writeDest {i : Instr} {dr : Reg} {v : Word} {s : State}
    (hexec : exec i s = .next (writeDest dr v s)) :
    ∃ t, exec i s = .next t ∧ getReg dr t = v ∧ FlagsMatch (getReg dr t) t.cond ∧
      KeepsRegs [dr] s t ∧ t.pc = s.pc ∧ KeepsOutside s t :=
  ⟨writeDest dr v s, hexec, getReg_writeDest_same dr v s, writeDest_flagsMatch dr v s,
    writeDest_keepsRegs dr v s, writeDest_pc s dr v, writeDest_keepsOutside dr v s⟩

/-! The operate instructions, as what they write where. -/

theorem exec_addReg (dr sr1 sr2 : Reg) (s : State) :
    exec (.addReg dr sr1 sr2) s = .next (writeDest dr (getReg sr1 s + getReg sr2 s) s) := rfl

theorem exec_addImm (dr sr1 : Reg) (imm : BitVec 5) (s : State) :
    exec (.addImm dr sr1 imm) s = .next (writeDest dr (getReg sr1 s + imm.signExtend 16) s) := rfl

theorem exec_andReg (dr sr1 sr2 : Reg) (s : State) :
    exec (.andReg dr sr1 sr2) s = .next (writeDest dr (getReg sr1 s &&& getReg sr2 s) s) := rfl

theorem exec_andImm (dr sr1 : Reg) (imm : BitVec 5) (s : State) :
    exec (.andImm dr sr1 imm) s = .next (writeDest dr (getReg sr1 s &&& imm.signExtend 16) s) := rfl

/-- R112: the complement the model writes is the difference the spec names. -/
theorem exec_not (dr sr : Reg) (s : State) :
    exec (.not dr sr) s = .next (writeDest dr (0xFFFF#16 - getReg sr s) s) := by
  have hcompl : 0xFFFF#16 - getReg sr s = ~~~ getReg sr s := BitVec.allOnes_sub_eq_not (getReg sr s)
  rw [hcompl, exec, execNot]

/-! The obligations. -/

/-- Settles O13: both forms are one destination write, of the sum of the values before it. -/
theorem addResultAndFrame : Obligations.AddResultAndFrame :=
  ⟨fun dr sr1 sr2 s => resultAndFrame_of_writeDest (exec_addReg dr sr1 sr2 s),
    fun dr sr1 imm s => resultAndFrame_of_writeDest (exec_addImm dr sr1 imm s)⟩

/-- Settles O14: both forms are one destination write, of the bitwise and of the values before it. -/
theorem andResultAndFrame : Obligations.AndResultAndFrame :=
  ⟨fun dr sr1 sr2 s => resultAndFrame_of_writeDest (exec_andReg dr sr1 sr2 s),
    fun dr sr1 imm s => resultAndFrame_of_writeDest (exec_andImm dr sr1 imm s)⟩

/-- Settles O15: NOT is one destination write, of 0xFFFF less the value before it. -/
theorem notResultAndFrame : Obligations.NotResultAndFrame :=
  fun dr sr s => resultAndFrame_of_writeDest (exec_not dr sr s)

end Sys2Proof.Machine

/-! PROOFS. LEA, and what ST and STR store and leave alone (42_load_store.md R123, R124, R126). -/

namespace Sys2Proof.Machine

/-! LEA. -/

theorem exec_lea (dr : Reg) (off : BitVec 9) (s : State) :
    exec (.lea dr off) s = .next (writeDest dr (s.pc + off.signExtend 16) s) := rfl

/-- Settles O23: LEA is one destination write, of the address itself. -/
theorem leaResultAndFrame : Obligations.LeaResultAndFrame :=
  fun dr off s => resultAndFrame_of_writeDest (exec_lea dr off s)

/-! What one store does. -/

/-- R59: a write to a device address stores nothing there. -/
theorem wordAt_memWrite_device {addr v : Word} {s : State} (hdev : isDevice s.cfg addr = true) :
    wordAt addr (memWrite addr v s) = wordAt addr s := by
  rw [memWrite_device hdev]

theorem memWrite_keepsWords (addr v : Word) (s : State) : KeepsWords [addr] s (memWrite addr v s) :=
  fun _ hb => wordAt_memWrite_other (List.ne_of_not_mem_cons hb)

/-- A write, to a device address or not, moves nothing outside memory. -/
theorem memWrite_frame (addr v : Word) (s : State) :
    KeepsRegs [] s (memWrite addr v s) ∧ (memWrite addr v s).cond = s.cond ∧ (memWrite addr v s).pc = s.pc ∧
      KeepsIo s (memWrite addr v s) ∧ KeepsRun s (memWrite addr v s) := by
  obtain ⟨m, hm⟩ := memWrite_eq addr v s
  rw [hm]
  exact ⟨fun _ _ => rfl, rfl, rfl, ⟨rfl, rfl, rfl⟩, rfl, rfl, rfl⟩

/-- Settles O24: at the address it computes, each of the two is one `memWrite` of the register. -/
theorem stStrStoreOneWord : Obligations.StStrStoreOneWord := by
  intro s ea i sr hwf hstore
  have hexec : exec i s = .next (memWrite ea (getReg sr s) s) := by
    rcases hstore with ⟨off, rfl, rfl⟩ | ⟨b, off, rfl, rfl⟩
    · exact exec_st sr off s
    · exact exec_str sr b off s
  exact ⟨_, hexec, wordAt_memWrite_same hwf, wordAt_memWrite_device, memWrite_keepsWords ea _ s, memWrite_frame ea _ s⟩

end Sys2Proof.Machine

/-! PROOFS. JMP and JSR: each ends in one write of `pc`, JSR after the link (43_jump.md R140, R141). -/

namespace Sys2Proof.Machine

/-- The link writes R7 and moves nothing else: the next instruction's address is where `pc` stands already. -/
theorem linkR7_frame (s : State) :
    KeepsRegs [7] s (linkR7 s) ∧ (linkR7 s).cond = s.cond ∧ KeepsOutside s (linkR7 s) :=
  ⟨fun _ hr => getReg_setReg_ne s (List.ne_of_not_mem_cons hr) s.pc, rfl, fun _ _ => rfl, ⟨rfl, rfl, rfl⟩,
    rfl, rfl, rfl⟩

theorem exec_jmp (b : Reg) (s : State) : exec (.jmp b) s = .next (setPc (getReg b s) s) := rfl

theorem exec_jsr (off : BitVec 11) (s : State) :
    exec (.jsr off) s = .next (setPc (s.pc + off.signExtend 16) (linkR7 s)) := rfl

/-- Settles O28: JMP is one `setPc`, so the frame is that of `setPc`. -/
theorem jmpResultAndFrame : Obligations.JmpResultAndFrame := by
  intro b s
  obtain ⟨hregs, hout⟩ := setPc_frame (getReg b s) s
  exact ⟨_, exec_jmp b s, setPc_pc .., hregs, setPc_cond .., hout⟩

/-- Settles O29: JSR is one `setPc` after the link, and `setPc` leaves alone all that the frame of the link speaks of. -/
theorem jsrResultAndFrame : Obligations.JsrResultAndFrame := by
  intro off s
  have hlink : getReg 7 (linkR7 s) = s.pc := getReg_setReg_same s 7 s.pc
  exact ⟨_, exec_jsr off s, hlink, setPc_pc .., linkR7_frame s⟩

end Sys2Proof.Machine

/-! PROOFS. RES and RTI: each is one `raise` of `InvalidOpcode`, with the whole word (45_reserved.md R180, R181). -/

namespace Sys2Proof.Machine

theorem exec_res (u : BitVec 12) (s : State) :
    exec (.res u) s = .next (raise (.invalidOpcode (s.pc - 1#16) (encode (.res u))) s) := rfl

theorem exec_rti (u : BitVec 12) (s : State) :
    exec (.rti u) s = .next (raise (.invalidOpcode (s.pc - 1#16) (encode (.rti u))) s) := rfl

/-- Settles O45: each class ends in one `raise`, and `raise` sets the status it is given. -/
theorem reservedRaisesInvalidOpcode : Obligations.ReservedRaisesInvalidOpcode :=
  fun u s => ⟨⟨_, exec_res u s, raise_status ..⟩, ⟨_, exec_rti u s, raise_status ..⟩⟩

end Sys2Proof.Machine

/-! PROOFS. A run that is over stays where it is (60_exceptions.md R191). -/

namespace Sys2Proof.Machine

theorem not_steps_of_over {s t : State} (hover : s.status ≠ .running) : ¬ Steps s t := by
  rw [Steps, step_over hover]
  nofun

/-- R191: from a run that is over, a run reaches the state it is in and no other. -/
theorem reaches_iff_eq_of_over {s t : State} (hover : s.status ≠ .running) : Reaches s t ↔ t = s :=
  Relation.reflTransGen_iff_eq fun _ => not_steps_of_over hover

/-- Settles O50: no step leaves a terminal state, so the only run from it is the empty one. -/
theorem overIsFinal : Obligations.OverIsFinal := by
  intro s hover
  refine ⟨fun t => not_steps_of_over hover, fun t hreach => ?_⟩
  obtain rfl := (reaches_iff_eq_of_over hover).1 hreach
  exact ⟨rfl, rfl⟩

end Sys2Proof.Machine

/-! PROOFS. HALT ends the run, and no other instruction halts (44_trap.md R172; 60_exceptions.md R186). -/

namespace Sys2Proof.Machine

/-! HALT. -/

/-- R172: if the output takes the notice, HALT links, writes it and raises `Halted` with its own address. -/
theorem exec_halt_of_takes {s : State} (htakes : Takes s.output s.cfg.haltNotice.length) :
    exec .halt s =
      .next (raise (.halted (s.pc - 1#16)) (setOutput (afterBytes s.output s.cfg.haltNotice) (linkR7 s))) := by
  have hnotice : outBytes (s.pc - 1#16) s.cfg.haltNotice (linkR7 s) =
      .ok () (setOutput (afterBytes s.output s.cfg.haltNotice) (linkR7 s)) :=
    outBytes_takes htakes
  simp [exec, execHalt, serviceHalt, haltBody, trapEntry, hnotice]

/-! How every other instruction leaves the status. -/

/-- What an instruction at `a` other than HALT can make of the status `c`: it goes on, or raises a fatal condition with
its own address (R185, R187 to R189). -/
inductive GoesOnOrFails (a : Word) (c : RunStatus) : RunStatus → Prop where
  | goesOn : GoesOnOrFails a c c
  | ioError (dir : IoDir) : GoesOnOrFails a c (.ioError a dir)
  | invalidOpcode (ir : Word) : GoesOnOrFails a c (.invalidOpcode a ir)
  | invalidTrap (v : BitVec 8) : GoesOnOrFails a c (.invalidTrap a v)

/-- `Halted` is not among the fatal conditions. -/
theorem GoesOnOrFails.ne_halted {a b : Word} {c : RunStatus} (h : GoesOnOrFails a .running c) : c ≠ .halted b := by
  rintro rfl
  cases h

section Status
variable {s t : State}

@[simp] theorem memWrite_status (addr v : Word) (s : State) : (memWrite addr v s).status = s.status := by
  obtain ⟨m, hm⟩ := memWrite_eq addr v s
  rw [hm, setMem_status]

theorem EndsByWriteDest.status {dr : Reg} (h : EndsByWriteDest dr s t) :
    GoesOnOrFails (instrAddr s) s.status t.status := by
  rcases h with ⟨v, m, -, hm, rfl⟩ | ⟨-, ht⟩
  · rw [writeDest_status, hm]
    exact .goesOn
  · rw [ht]
    exact .ioError _

theorem execSti_status {sr : Reg} {off : BitVec 9} (h : execSti sr off s = .next t) :
    GoesOnOrFails (instrAddr s) s.status t.status := by
  rcases execSti_cases h with ⟨ptr, m, hread, rfl⟩ | hread
  · obtain ⟨-, hm, -⟩ := memRead_ok_ioOnly hread
    rw [memWrite_status, hm]
    exact .goesOn
  · obtain ⟨-, ht, -, -⟩ := memRead_ended_ioOnly hread
    rw [ht]
    exact .ioError _

theorem serviceGetc_status (h : serviceGetc s = .next t) : GoesOnOrFails (instrAddr s) s.status t.status := by
  rcases serviceGetc_cases h with ⟨c, p, rfl⟩ | ⟨p, rfl⟩ | rfl
  · exact .goesOn
  · exact .ioError _
  · exact .goesOn

theorem serviceOut_status (h : serviceOut s = .next t) : GoesOnOrFails (instrAddr s) s.status t.status := by
  rcases serviceOut_cases h with ⟨f, rfl⟩ | rfl
  · exact .goesOn
  · exact .ioError _

theorem inBody_status (h : (inBody s).outcome (some .inp) = .next t) :
    GoesOnOrFails (instrAddr s) s.status t.status := by
  rcases inBody_cases h with ⟨c, p, f, rfl⟩ | ⟨p, rfl⟩ | ⟨p, rfl⟩ | rfl
  · exact .goesOn
  · exact .ioError _
  · exact .ioError _
  · exact .goesOn

theorem serviceIn_status (h : serviceIn s = .next t) : GoesOnOrFails (instrAddr s) s.status t.status := by
  rcases serviceIn_cases h with ⟨o, -, rfl⟩ | ⟨f, hbody⟩
  · exact .ioError _
  · exact (inBody_status hbody :)

theorem writeString_status {emit : Word → List Byte} (h : (writeString emit s).outcome none = .next t) :
    GoesOnOrFails (instrAddr s) s.status t.status := by
  rcases (writeString_frame h).status with ht | ⟨dir, ht⟩
  · rw [ht]
    exact .goesOn
  · rw [ht]
    exact .ioError dir

/-- R151: a TRAP written as such has a vector no service has, so it raises `InvalidTrap`. -/
theorem exec_trap_of_wellFormed {v : BitVec 8} (hwf : (Instr.trap v).wellFormed = true) :
    exec (.trap v) s = .next (raise (.invalidTrap (s.pc - 1#16) v) (linkR7 s)) := by
  have hv : v ∉ recognisedVectors := by simpa [Instr.wellFormed] using hwf
  have hdispatch : dispatchVector v (linkR7 s) = unknownVector v (linkR7 s) := by
    unfold dispatchVector
    split
    iterate 6 exact absurd (by decide) hv
    rfl
  exact hdispatch

/-- R186: no instruction but HALT does more to the status than raise a fatal condition. -/
theorem exec_status_of_ne_halt {i : Instr} (hwf : i.wellFormed = true) (hne : i ≠ .halt) (h : exec i s = .next t) :
    GoesOnOrFails (instrAddr s) s.status t.status := by
  cases hdest : destField i with
  | some dr => exact (exec_endsByWriteDest hdest h).status
  | none =>
    match i, hdest, h with
    | .br n z p off, _, h =>
      cases (exec_br n z p off s).symm.trans h
      exact .goesOn
    | .jmp _, _, rfl | .jsr _, _, rfl | .jsrr _, _, rfl => exact .goesOn
    | .st _ _, _, rfl | .str _ _ _, _, rfl =>
      rw [memWrite_status]
      exact .goesOn
    | .sti _ _, _, h => exact execSti_status h
    | .res _, _, rfl | .rti _, _, rfl => exact .invalidOpcode _
    | .trap v, _, h =>
      cases (exec_trap_of_wellFormed hwf).symm.trans h
      exact .invalidTrap v
    | .getc, _, h => exact serviceGetc_status (s := trapEntry s) h
    | .out, _, h => exact serviceOut_status (s := trapEntry s) h
    | .inp, _, h => exact serviceIn_status (s := trapEntry s) h
    | .puts, _, h | .putsp, _, h => exact writeString_status (s := trapEntry s) h
    | .halt, _, _ => exact absurd rfl hne

end Status

/-- Settles O42: HALT is the link, the notice and one `raise`; every other instruction leaves a running machine running
or fails. -/
theorem haltEndsTheRun : Obligations.HaltEndsTheRun := by
  constructor
  · intro s htakes
    obtain ⟨hregs, hcond, hwords, -, -⟩ := linkR7_frame s
    have hlink : getReg 7 (linkR7 s) = s.pc := getReg_setReg_same s 7 s.pc
    exact ⟨_, exec_halt_of_takes htakes, rfl, rfl, hlink, rfl, hregs, hcond, hwords, rfl, rfl, rfl, rfl⟩
  · intro i s t a hwf hrunning hexec hhalted
    by_contra hne
    have hstatus := exec_status_of_ne_halt hwf hne hexec
    rw [hrunning] at hstatus
    exact hstatus.ne_halted hhalted

end Sys2Proof.Machine

/-! PROOFS. The decoder against the encoder: fields, unused bits, and the TRAP class (30_encoding.md R76 to R86). -/

namespace Sys2Proof.Machine

/-! Register fields. -/

@[simp] theorem toFin_regBits (r : Reg) : (regBits r).toFin = r := rfl

@[simp] theorem regBits_regField (w : Word) (lo : Nat) : regBits (regField w lo) = w.extractLsb' lo 3 := rfl

/-! The TRAP class. -/

theorem wellFormed_trap {v : BitVec 8} : (Instr.trap v).wellFormed = true ↔ v ∉ recognisedVectors := by
  simp [Instr.wellFormed]

theorem decodeTrap_of_notMem {v : BitVec 8} (hv : v ∉ recognisedVectors) : decodeTrap v = .trap v := by
  unfold decodeTrap
  split
  iterate 6 exact absurd (by decide) hv
  rfl

theorem wellFormed_decodeTrap (v : BitVec 8) : (decodeTrap v).wellFormed = true := by
  by_cases hv : v ∈ recognisedVectors
  · revert v
    decide
  · rw [decodeTrap_of_notMem hv, wellFormed_trap]
    exact hv

/-- Every vector, recognised or not, stands in the low byte of the word. -/
theorem encode_decodeTrap (v : BitVec 8) : encode (decodeTrap v) = 0xF#4 ++ 0x0#4 ++ v := by
  unfold decodeTrap
  split <;> rfl

theorem usedBits_decodeTrap (v : BitVec 8) : usedBits (decodeTrap v) = 0xF0FF#16 := by
  unfold decodeTrap
  split <;> rfl

/-! Decoding the word of an instruction. -/

theorem decode_encode {i : Instr} (hwf : i.wellFormed = true) : decode (encode i) = i := by
  cases i with
  | trap v =>
    have htrap : decodeTrap v = .trap v := decodeTrap_of_notMem (wellFormed_trap.1 hwf)
    simpa (disch := decide) only [encode, decode, opcodeOf, BitVec.extractLsb'_append_eq_of_le,
      BitVec.extractLsb'_append_eq_of_add_le, BitVec.extractLsb'_eq_self] using htrap
  | getc | out | puts | inp | putsp | halt => decide
  | _ =>
    simp (disch := decide) only [encode, decode, opcodeOf, regField, BitVec.extractLsb'_append_eq_of_le,
      BitVec.extractLsb'_append_eq_of_add_le, BitVec.getLsbD_append]
    simp [BitVec.extractLsb'_eq_self]

/-- Settles O1: each field stands in the word where the decoder looks for it, and no vector of a service is written as
`.trap`. -/
theorem decodeEncodeRoundTrip : Obligations.DecodeEncodeRoundTrip := fun _ => decode_encode

/-! The word of a decoded instruction. -/

theorem wellFormed_decode (w : Word) : (decode w).wellFormed = true := by
  unfold decode
  split
  case h_16 => exact wellFormed_decodeTrap _
  case h_2 | h_5 | h_6 => split <;> rfl
  all_goals rfl

/-- Two words agree under a mask if they agree on each bit the mask has. -/
theorem and_eq_and_of_bits {w w' m : Word}
    (h : ∀ k < 16, m.getLsbD k = true → w.getLsbD k = w'.getLsbD k) : w &&& m = w' &&& m := by
  apply BitVec.eq_of_getLsbD_eq
  intro k hk
  cases hm : m.getLsbD k with
  | false => simp [hm]
  | true => simp [hm, h k hk hm]

/-- Each used bit of the word comes from the field the decoder read it into; the opcode's from its class. -/
theorem encode_decode (w : Word) : encode (decode w) &&& usedBits (decode w) = w &&& usedBits (decode w) := by
  apply and_eq_and_of_bits
  intro k hk
  unfold decode
  split
  case h_2 hop | h_6 hop =>
    cases hform : w.getLsbD 5
    all_goals
      simp only [Bool.false_eq_true, if_true, if_false, encode, ← hop, opcodeOf, BitVec.getLsbD_append,
        regBits_regField]
      interval_cases k <;> simp [usedBits, hform, -BitVec.getLsbD_eq_getElem]
  case h_5 hop =>
    cases hform : w.getLsbD 11
    all_goals
      simp only [Bool.false_eq_true, if_true, if_false, encode, ← hop, opcodeOf, BitVec.getLsbD_append,
        regBits_regField]
      interval_cases k <;> simp [usedBits, hform, -BitVec.getLsbD_eq_getElem]
  case h_16 =>
    have hop : 0xF#4 = opcodeOf w := by
      simp only [imp_false] at *
      bv_omega
    rw [usedBits_decodeTrap, encode_decodeTrap, hop]
    simp only [opcodeOf, BitVec.getLsbD_append]
    interval_cases k <;> simp
  all_goals
    rename_i hop
    simp only [encode, ← hop, opcodeOf, BitVec.getLsbD_append, regBits_regField]
    interval_cases k <;> simp [usedBits]

/-- Settles O2, class by class: what the encoder writes is, on the used bits, what the decoder read. -/
theorem decodeKeepsEveryUsedBit : Obligations.DecodeKeepsEveryUsedBit :=
  fun w => ⟨wellFormed_decode w, encode_decode w⟩

/-! Words that agree on the used bits. -/

theorem getLsbD_congr {w w' m : Word} (k : Nat) (hagree : w &&& m = w' &&& m) (hmask : m.getLsbD k = true) :
    w'.getLsbD k = w.getLsbD k := by
  have h := congrArg (BitVec.getLsbD · k) hagree
  simpa [hmask] using h.symm

theorem extractLsb'_congr {w w' m : Word} (lo len : Nat) (hagree : w &&& m = w' &&& m)
    (hmask : m.extractLsb' lo len = BitVec.allOnes len) : w'.extractLsb' lo len = w.extractLsb' lo len := by
  have h := congrArg (BitVec.extractLsb' lo len) hagree
  simpa [BitVec.extractLsb'_and, hmask] using h.symm

theorem regField_congr {w w' m : Word} (lo : Nat) (hagree : w &&& m = w' &&& m)
    (hmask : m.extractLsb' lo 3 = BitVec.allOnes 3) : regField w' lo = regField w lo :=
  congrArg BitVec.toFin (extractLsb'_congr lo 3 hagree hmask)

/-- Every instruction uses its opcode field (R76). -/
theorem usedBits_opcode (i : Instr) : (usedBits i).extractLsb' 12 4 = BitVec.allOnes 4 := by
  cases i <;> simp [usedBits]

/-- Where every bit is used the words are one; elsewhere the class, the form and every field agree. -/
theorem decode_congr {w w' : Word} (h : w &&& usedBits (decode w) = w' &&& usedBits (decode w)) :
    decode w' = decode w := by
  by_cases hfull : usedBits (decode w) = BitVec.allOnes 16
  · rw [hfull, BitVec.and_allOnes, BitVec.and_allOnes] at h
    rw [h]
  · have hop : opcodeOf w' = opcodeOf w := extractLsb'_congr 12 4 h (usedBits_opcode _)
    revert h hfull
    unfold decode
    rw [hop]
    split
    case h_2 | h_6 =>
      cases hform : w.getLsbD 5 with
      | true => exact fun _ hfull => absurd rfl hfull
      | false =>
        intro h _
        rw [getLsbD_congr 5 h (by simp [usedBits]), hform, regField_congr 9 h (by simp [usedBits]),
          regField_congr 6 h (by simp [usedBits]), regField_congr 0 h (by simp [usedBits])]
        rfl
    case h_5 =>
      cases hform : w.getLsbD 11 with
      | true => exact fun _ hfull => absurd rfl hfull
      | false =>
        intro h _
        rw [getLsbD_congr 11 h (by simp [usedBits]), hform, regField_congr 6 h (by simp [usedBits])]
        rfl
    case h_10 =>
      intro h _
      rw [regField_congr 9 h (by simp [usedBits]), regField_congr 6 h (by simp [usedBits])]
    case h_13 =>
      intro h _
      rw [regField_congr 6 h (by simp [usedBits])]
    case h_16 =>
      intro h _
      rw [extractLsb'_congr 0 8 h (by simp [usedBits_decodeTrap])]
    all_goals exact fun _ hfull => absurd rfl hfull

/-- Settles O3: the decoder looks at used bits only. -/
theorem decodeIgnoresUnusedBits : Obligations.DecodeIgnoresUnusedBits := fun _ _ => decode_congr

/-- Settles O4, word by word. -/
theorem specWordsDecode : Obligations.SpecWordsDecode := by
  unfold Obligations.SpecWordsDecode
  decide

end Sys2Proof.Machine

/-! PROOFS. The reset state, and which flag each mask bit of BR answers to (10_state.md R40; 30_encoding.md R83). -/

namespace Sys2Proof.Machine

/-- Settles O6: every field of the reset state is written out, and unlisted memory reads as 0. -/
theorem resetState : Obligations.ResetState :=
  ⟨fun r => Vector.getElem_replicate r.isLt, rfl, fun _ => rfl, rfl, rfl, rfl⟩

/-- R83: the mask bit of the present flag decides. -/
theorem bits_and_brMask (c : Cond) (n z p : Bool) :
    ((c.bits &&& brMask n z p) != 0) = (match c with | .neg => n | .zro => z | .pos => p) := by
  revert n z p
  cases c <;> decide

/-- Settles O12: BR's target depends on `branchTaken` alone, which is the mask bit of the present flag. -/
theorem brMaskBitsSelectFlags : Obligations.BrMaskBitsSelectFlags := by
  intro n z p off s
  refine ⟨_, exec_br n z p off s, ?_⟩
  exact congrArg (fun taken : Bool => if taken then s.pc + off.signExtend 16 else s.pc) (bits_and_brMask s.cond n z p)

end Sys2Proof.Machine

/-! PROOFS. The keyboard through the read path: the poll of KBSR, the latch at KBDR, and plain storage beside them
(20_memory.md R50 to R58). -/

namespace Sys2Proof.Machine

/-! What the next `InRead` delivers, as the poll sees it. -/

section Ports
variable {p q : InputPort} {c : Byte}

theorem Supplies.ready (h : Supplies p c q) : inputReady p = true := by
  rcases h with ⟨rest, hq, -⟩ | ⟨hq, ht, -⟩ <;> simp [inputReady, *]

/-- An input that is ready delivers a character or an error. -/
theorem supplies_or_error_of_ready (h : inputReady p = true) :
    (∃ c q, Supplies p c q) ∨ ∃ rest, p.queue = .error :: rest := by
  cases hq : p.queue with
  | cons item rest =>
    cases item with
    | char c => exact .inl ⟨c, _, .inl ⟨rest, hq, rfl⟩⟩
    | error => exact .inr ⟨rest, rfl⟩
  | nil =>
    cases ht : p.tail with
    | endless c => exact .inl ⟨c, p, .inr ⟨hq, ht, rfl⟩⟩
    | ended | silent => simp [inputReady, hq, ht] at h

theorem not_ready_of_finite (hq : p.queue = []) (hfin : FiniteInput p) : inputReady p = false := by
  cases ht : p.tail with
  | endless c => exact absurd ht (hfin c)
  | ended | silent => simp [inputReady, hq, ht]

/-- Poll answers are no part of what is delivered. -/
theorem Supplies.withPolls (h : Supplies p c q) (polls : List Bool) :
    Supplies { p with polls := polls } c { q with polls := polls } := by
  rcases h with ⟨rest, hq, rfl⟩ | ⟨hq, ht, rfl⟩
  · exact .inl ⟨rest, hq, rfl⟩
  · exact .inr ⟨hq, ht, rfl⟩

end Ports

/-! The poll of KBSR (R57). -/

section Kbsr
variable {a : Word} {s : State}

/-- An `InRead` delivers one thing. -/
theorem Supplies.unique {c c' : Byte} {q q' : InputPort} (h : Supplies s.input c q) (h' : Supplies s.input c' q') :
    c' = c ∧ q' = q := by
  have hread := (inRead_supplies (a := s.pc) h').symm.trans (inRead_supplies h)
  injection hread with hc hstate
  exact ⟨hc, congrArg State.input hstate⟩

/-- The input after one more poll. -/
def polledInput (s : State) : InputPort := { s.input with polls := s.input.polls.tail }

theorem kbsrRead_notReady (h : (s.input.polls.headD true && inputReady s.input) = false) :
    kbsrRead a s = .ok 0x0000#16 (setInput (polledInput s) s) := by
  rw [← inPoll_answer] at h
  rw [kbsrRead, h, inPoll_state]
  rfl

theorem kbsrRead_ready (hpoll : s.input.polls.headD true = true) (hready : inputReady s.input = true) :
    kbsrRead a s = (inRead a (setInput (polledInput s) s)).andThen fun c t =>
      .ok 0x8000#16 (setLatch (c.setWidth 16) t) := by
  rw [kbsrRead, inPoll_answer, hpoll, hready, inPoll_state]
  rfl

theorem kbsrRead_supplies {c : Byte} {q : InputPort} (hpoll : s.input.polls.headD true = true)
    (hsup : Supplies s.input c q) :
    kbsrRead a s =
      .ok 0x8000#16 (setLatch (c.setWidth 16) (setInput { q with polls := s.input.polls.tail } s)) := by
  have hsup' : Supplies (setInput (polledInput s) s).input c { q with polls := s.input.polls.tail } :=
    hsup.withPolls s.input.polls.tail
  rw [kbsrRead_ready hpoll hsup.ready, inRead_supplies hsup', ok_andThen, setInput_setInput]

theorem kbsrRead_error {rest : List InItem} (hpoll : s.input.polls.headD true = true)
    (herr : s.input.queue = .error :: rest) :
    ∃ p, kbsrRead a s = .ended (raise (.ioError a .input) (setInput p s)) := by
  have hready : inputReady s.input = true := by simp [inputReady, herr]
  have hfails : Fails (setInput (polledInput s) s).input := .inl ⟨rest, herr⟩
  obtain ⟨p, hp⟩ := inRead_fails (a := a) hfails
  exact ⟨p, by rw [kbsrRead_ready hpoll hready, hp]; rfl⟩

/-- A poll that reads other than 0x0000 was ready and took a character. -/
theorem kbsrRead_nonzero {w : Word} {m : State} (h : kbsrRead a s = .ok w m) (hw : w ≠ 0#16) :
    ∃ c q, Supplies s.input c q ∧
      m = setLatch (c.setWidth 16) (setInput { q with polls := s.input.polls.tail } s) := by
  cases hanswer : s.input.polls.headD true && inputReady s.input with
  | false =>
    rw [kbsrRead_notReady hanswer] at h
    cases h
    exact absurd rfl hw
  | true =>
    obtain ⟨hpoll, hready⟩ := Bool.and_eq_true_iff.1 hanswer
    rcases supplies_or_error_of_ready hready with ⟨c, q, hsup⟩ | ⟨rest, herr⟩
    · rw [kbsrRead_supplies hpoll hsup] at h
      cases h
      exact ⟨c, q, hsup, rfl⟩
    · obtain ⟨p, hp⟩ := kbsrRead_error (a := a) hpoll herr
      rw [hp] at h
      cases h

end Kbsr

/-- Settles O16: each clause is one case of the poll: not ready, ready with a character, ready with an error. -/
theorem kbsrReadPollsTheKeyboard : Obligations.KbsrReadPollsTheKeyboard := by
  intro a s
  rw [memRead_kbsr rfl]
  refine ⟨fun hnot => kbsrRead_notReady ?_, fun hpoll c q hsup => kbsrRead_supplies hpoll hsup,
    fun hpoll rest herr => ?_⟩
  · rcases hnot with hpoll | ⟨hq, hfin⟩
    · rw [hpoll, Bool.false_and]
    · rw [not_ready_of_finite hq hfin, Bool.and_false]
  · obtain ⟨p, hp⟩ := kbsrRead_error (a := a) hpoll herr
    exact ⟨_, hp, rfl, rfl⟩

/-- Settles O17: KBDR reads as the latch, into which a ready poll has put the character it took. -/
theorem kbdrReadsTheLastPolledCharacter : Obligations.KbdrReadsTheLastPolledCharacter := by
  intro a s hdistinct
  refine ⟨memRead_kbdr rfl hdistinct, fun c q hsup t hread => ?_⟩
  rw [memRead_kbsr rfl] at hread
  obtain ⟨c', q', hsup', rfl⟩ := kbsrRead_nonzero hread (by decide)
  obtain ⟨rfl, rfl⟩ := hsup.unique hsup'
  exact memRead_kbdr rfl hdistinct

/-- Settles O19: a plain address is read from memory, where the write has put the word and moved no other. -/
theorem readAfterWrite : Obligations.ReadAfterWrite := by
  intro a addr v s hwf hplain
  refine ⟨?_, fun b hne hb => ?_⟩
  · rw [memRead_plain (by rwa [memWrite_cfg]), wordAt_memWrite_same hwf hplain]
  · rw [memRead_plain (by rwa [memWrite_cfg]), wordAt_memWrite_other hne]

end Sys2Proof.Machine

/-! PROOFS. The loads, STI, and a fetch after a store, by what the read path answers (42_load_store.md R120 to R125). -/

namespace Sys2Proof.Machine

/-! The two ends of a read. -/

/-- Where a read fails, the state it ends in has the `IoError` of the reading instruction. -/
theorem memRead_ended_status {a addr : Word} {s m : State} (h : memRead a addr s = .ended m) :
    m.status = .ioError a .input :=
  (memRead_ended_ioOnly h).2.1

/-- What a destination write after reads makes of the state before them. -/
theorem writeDest_after_reads {s m : State} (dr : Reg) (v : Word) (hio : IoOnly s m) (hstatus : m.status = s.status) :
    getReg dr (writeDest dr v m) = v ∧ FlagsMatch v (writeDest dr v m).cond ∧ KeepsRegs [dr] s (writeDest dr v m) ∧
      (writeDest dr v m).pc = s.pc ∧ KeepsWords [] s (writeDest dr v m) ∧ KeepsIo m (writeDest dr v m) ∧
      KeepsRun s (writeDest dr v m) := by
  refine ⟨getReg_writeDest_same dr v m, ?_, fun r hr => ?_, hio.pc, fun addr _ => ?_, ⟨rfl, rfl, rfl⟩,
    hio.cfg, hstatus, hio.wait⟩
  · rw [writeDest_cond]
    exact flagsMatch_condOf v
  · rw [writeDest_keepsRegs dr v m r hr, hio.getReg]
  · rw [wordAt, wordAt, writeDest_mem, hio.mem]

/-! Loads. -/

section Loads
variable {s m : State} {dr : Reg}

theorem loadDest_of_ok {addr v : Word} (hread : memRead (s.pc - 1#16) addr s = .ok v m) :
    (loadDest dr addr s).outcome none = .next (writeDest dr v m) := by
  rw [loadDest, instrAddr_eq, hread, ok_andThen, ok_outcome]

theorem loadDest_of_ended {addr : Word} (hread : memRead (s.pc - 1#16) addr s = .ended m) :
    (loadDest dr addr s).outcome none = .next m := by
  rw [loadDest, instrAddr_eq, hread, ended_andThen, ended_outcome]

theorem exec_ldi_of_pointer {off : BitVec 9} {ptr : Word}
    (hread : memRead (s.pc - 1#16) (s.pc + off.signExtend 16) s = .ok ptr m) :
    exec (.ldi dr off) s = (loadDest dr ptr m).outcome none := by
  have hptr : readPointer off s = .ok ptr m := hread
  rw [exec, execLdi, hptr, ok_andThen]

theorem exec_ldi_of_ended {off : BitVec 9}
    (hread : memRead (s.pc - 1#16) (s.pc + off.signExtend 16) s = .ended m) :
    exec (.ldi dr off) s = .next m := by
  have hptr : readPointer off s = .ended m := hread
  rw [exec, execLdi, hptr, ended_andThen, ended_outcome]

theorem exec_sti_of_ended {sr : Reg} {off : BitVec 9}
    (hread : memRead (s.pc - 1#16) (s.pc + off.signExtend 16) s = .ended m) :
    exec (.sti sr off) s = .next m := by
  have hptr : readPointer off s = .ended m := hread
  rw [exec, execSti, hptr, ended_andThen, ended_outcome]

end Loads

/-- Settles O20: LD and LDR are `loadDest` at the address each computes, whose one read gives a word or fails. -/
theorem ldLdrFollowTheReadPath : Obligations.LdLdrFollowTheReadPath := by
  intro s ea i dr hload
  have hexec : exec i s = (loadDest dr ea s).outcome none := by
    rcases hload with ⟨off, rfl, rfl⟩ | ⟨b, off, rfl, rfl⟩ <;> rfl
  rw [hexec]
  rcases memRead_ends (s.pc - 1#16) ea s with ⟨v, m, hread⟩ | ⟨m, hread⟩
  · obtain ⟨hio, hstatus, -⟩ := memRead_ok_ioOnly hread
    exact .inl ⟨v, m, _, hread, loadDest_of_ok hread, writeDest_after_reads dr v hio hstatus⟩
  · exact .inr ⟨m, m, hread, loadDest_of_ended hread, memRead_ended_status hread⟩

/-- Settles O21: LDI reads its pointer and is then `loadDest`, with the same `pc`, in the state that read left. -/
theorem ldiReadsTwice : Obligations.LdiReadsTwice := by
  intro s dr off
  rcases memRead_ends (s.pc - 1#16) (s.pc + off.signExtend 16) s with ⟨ptr, m, hptr⟩ | ⟨m, hptr⟩
  · obtain ⟨hio, hstatus, -⟩ := memRead_ok_ioOnly hptr
    refine .inr ⟨ptr, m, hptr, ?_⟩
    rw [exec_ldi_of_pointer hptr]
    rcases memRead_ends (s.pc - 1#16) ptr m with ⟨v, m', hread⟩ | ⟨m', hread⟩
    · obtain ⟨hio', hstatus', -⟩ := memRead_ok_ioOnly hread
      exact .inr ⟨v, m', _, hread, loadDest_of_ok (by rwa [hio.pc]),
        writeDest_after_reads dr v (hio.trans hio') (hstatus'.trans hstatus)⟩
    · exact .inl ⟨m', m', hread, loadDest_of_ended (by rwa [hio.pc]), memRead_ended_status hread⟩
  · exact .inl ⟨m, m, hptr, exec_ldi_of_ended hptr, memRead_ended_status hptr⟩

/-- Settles O22: a read of plain storage gives the stored word and moves nothing, so each load is one destination
write. -/
theorem loadsFromPlainStorage : Obligations.LoadsFromPlainStorage := by
  intro s dr
  refine ⟨fun off hplain => ?_, fun b off hplain => ?_, fun off hplain hplain' => ?_⟩
  · exact resultAndFrame_of_writeDest (loadDest_of_ok (memRead_plain hplain))
  · exact resultAndFrame_of_writeDest (loadDest_of_ok (memRead_plain hplain))
  · have hexec := exec_ldi_of_pointer (dr := dr) (memRead_plain (a := s.pc - 1#16) hplain)
    exact resultAndFrame_of_writeDest (hexec.trans (loadDest_of_ok (memRead_plain hplain')))

/-! STI. -/

/-- Settles O25: the pointer read moves nothing the store or its frame speaks of but the keyboard. -/
theorem stiStoresThroughThePointer : Obligations.StiStoresThroughThePointer := by
  intro s sr off hwf
  rcases memRead_cases (s.pc - 1#16) (s.pc + off.signExtend 16) s with ⟨ptr, p, l, hread, -⟩ | ⟨p, hread⟩
  · exact .inr ⟨ptr, _, _, hread, exec_sti_of_pointer hread,
      wordAt_memWrite_same (s := setLatch l (setInput p s)) hwf,
      wordAt_memWrite_device (s := setLatch l (setInput p s)),
      memWrite_keepsWords ptr _ _, memWrite_frame ptr _ _⟩
  · exact .inl ⟨_, _, hread, exec_sti_of_ended hread, rfl⟩

/-- Settles O26: a pointer in plain storage is read without effect, and the rest is one store. -/
theorem stiThroughPlainPointer : Obligations.StiThroughPlainPointer := by
  intro s sr off hwf hplain
  exact ⟨_, exec_sti_of_pointer (memRead_plain hplain), wordAt_memWrite_same hwf, memWrite_keepsWords _ _ s,
    memWrite_frame _ _ s⟩

/-! A fetch after a store. -/

/-- A fetch from plain storage gives the word stored at `pc` and moves `pc` alone. -/
theorem fetch_plain {s : State} (hplain : isDevice s.cfg s.pc = false) :
    fetch s = .ok (wordAt s.pc s) (setPc (s.pc + 1#16) s) := by
  rw [fetch, memRead_plain hplain, ok_andThen]

/-- Settles O27: the fetch reads plain storage, where ST has put the register. -/
theorem fetchSeesTheStore : Obligations.FetchSeesTheStore := by
  intro s sr off hwf hplain
  refine ⟨_, exec_st sr off s, ?_⟩
  rw [fetch_plain (by rwa [setPc_cfg, memWrite_cfg])]
  exact congrArg (Flow.ok · _) (wordAt_memWrite_same hwf hplain)

end Sys2Proof.Machine

/-! PROOFS. The image load: words at device addresses, bad streams, and the invariant (20_memory.md R59, R65 to R68). -/

namespace Sys2Proof.Machine

/-! What is stored under a device address stays. -/

theorem wordAt_memWrite_of_isDevice {addr b v : Word} {s : State} (hb : isDevice s.cfg b = true) :
    wordAt b (memWrite addr v s) = wordAt b s := by
  by_cases h : b = addr
  · subst h
    exact wordAt_memWrite_device hb
  · exact wordAt_memWrite_other h

theorem wordAt_placeWords_of_isDevice {addr b : Word} {ws : List Word} {s : State} (hb : isDevice s.cfg b = true) :
    wordAt b (placeWords addr ws s) = wordAt b s := by
  induction ws generalizing addr s with
  | nil => rfl
  | cons w ws ih =>
    rw [placeWords, ih (by rwa [memWrite_cfg]), wordAt_memWrite_of_isDevice hb]

/-! The load as one placement. -/

theorem placedBeforeError_eq (img : ImageStream) (s : State) :
    ∃ addr ws, placedBeforeError img s = placeWords addr ws s := by
  unfold placedBeforeError
  split
  · exact ⟨0#16, [], rfl⟩
  · exact ⟨_, _, rfl⟩

/-- Whatever the image, the load is one placement on the reset state, and a status. -/
theorem boot_eq_placeWords (cfg : Config) (inp : InputPort) (out : OutputPort) (img : ImageStream) :
    ∃ c addr ws, boot cfg inp out img = setStatus c (placeWords addr ws (resetWith cfg inp out)) := by
  rw [boot_eq, loadImage]
  split
  · exact ⟨_, _, _, rfl⟩
  · obtain ⟨addr, ws, hplaced⟩ := placedBeforeError_eq img (resetWith cfg inp out)
    exact ⟨.loadError, addr, ws, by rw [hplaced]; rfl⟩

/-- Settles O8: no placement stores at a device address, and the reset memory is empty. -/
theorem imageWordsAtDevicesAreDropped : Obligations.ImageWordsAtDevicesAreDropped := by
  intro cfg inp out img addr hdev
  obtain ⟨c, origin, ws, hboot⟩ := boot_eq_placeWords cfg inp out img
  rw [hboot]
  exact (wordAt_placeWords_of_isDevice (s := resetWith cfg inp out) hdev).trans (wordAt_resetWith cfg inp out addr)

/-! Bad streams (R65, R67). -/

/-- A byte is left over exactly from a stream of odd length. -/
theorem imageWords_leftover (bs : List Byte) : (imageWords bs).2 = decide (bs.length % 2 = 1) := by
  fun_induction imageWords bs with
  | case1 | case2 => rfl
  | case3 hi lo rest ih =>
    rw [ih, List.length_cons, List.length_cons, Nat.add_assoc, Nat.add_mod_right]

/-- A stream with an origin has two bytes at least. -/
theorem two_le_length_of_imageWords {bs : List Byte} {origin : Word} {ws : List Word} {left : Bool}
    (h : imageWords bs = (origin :: ws, left)) : 2 ≤ bs.length := by
  match bs, h with
  | _ :: _ :: _, _ => simp

theorem imageContents_eq_none {img : ImageStream}
    (hbad : img.failed = true ∨ img.bytes.length % 2 = 1 ∨ img.bytes.length < 2 ∨
      ∃ origin ws, img.bytes = imageBytes origin ws ∧ 0x10000 < origin.toNat + ws.length) :
    imageContents img = none := by
  unfold imageContents
  split
  case h_1 origin ws hwords =>
    rcases hbad with hfailed | hodd | hshort | ⟨origin', ws', hbytes, hbig⟩
    · rw [hfailed, Bool.true_or, if_pos rfl]
    · have hleft := imageWords_leftover img.bytes
      simp [hwords, hodd] at hleft
    · exact absurd (two_le_length_of_imageWords hwords) (Nat.not_le.2 hshort)
    · rw [hbytes, imageWords_imageBytes] at hwords
      cases hwords
      rw [decide_eq_true hbig, Bool.or_true, if_pos rfl]
  case h_2 => rfl

/-- Settles O9: each kind of bad stream has no contents, so the load ends in `LoadError` and moves memory at most. -/
theorem badImageIsLoadError : Obligations.BadImageIsLoadError := by
  intro cfg inp out img hbad
  obtain ⟨addr, ws, hplaced⟩ := placedBeforeError_eq img (resetWith cfg inp out)
  obtain ⟨m, hm⟩ := placeWords_eq addr ws (resetWith cfg inp out)
  have hboot : boot cfg inp out img = raise .loadError (setMem m (resetWith cfg inp out)) := by
    rw [boot_eq, loadImage, imageContents_eq_none hbad, hplaced, hm]
  rw [hboot]
  exact ⟨rfl, rfl, step_over nofun⟩

/-! The invariant, at reset and after the load. -/

/-- A latch that is as it was or holds one character has high byte 0. -/
theorem highByte_of_latch {v v' : Word} (hv : v.extractLsb' 8 8 = 0#8) (h : v' = v ∨ ∃ c : Byte, v' = c.setWidth 16) :
    v'.extractLsb' 8 8 = 0#8 := by
  rcases h with rfl | ⟨c, rfl⟩
  · exact hv
  · ext k hk
    simp

/-- The invariant depends on memory, the parameters, the latch and the wait alone. -/
theorem State.Inv.of_frame {s t : State} (h : s.Inv) (hmem : t.mem = s.mem) (hcfg : t.cfg = s.cfg)
    (hlatch : t.kbdrLatch = s.kbdrLatch ∨ ∃ c : Byte, t.kbdrLatch = c.setWidth 16)
    (hwait : t.wait ≠ none → t.status = .running) : t.Inv where
  memWf := hmem ▸ h.memWf
  kbsrNotStored := by rw [hmem, hcfg, h.kbsrNotStored]
  kbdrNotStored := by rw [hmem, hcfg, h.kbdrNotStored]
  latchHigh := highByte_of_latch h.latchHigh hlatch
  devices := hcfg ▸ h.devices
  waiting := hwait

/-- A store keeps memory canonical and stores nothing under a device register. -/
theorem State.Inv.memWrite {s : State} (h : s.Inv) (addr v : Word) : (memWrite addr v s).Inv := by
  have hkbsr : wordAt s.cfg.kbsrAddr (Machine.memWrite addr v s) = 0#16 :=
    (wordAt_memWrite_of_isDevice (by simp [isDevice])).trans h.kbsrNotStored
  have hkbdr : wordAt s.cfg.kbdrAddr (Machine.memWrite addr v s) = 0#16 :=
    (wordAt_memWrite_of_isDevice (by simp [isDevice])).trans h.kbdrNotStored
  have hwf := memWrite_wf (addr := addr) (v := v) h.memWf
  obtain ⟨m, hm⟩ := memWrite_eq addr v s
  rw [hm] at hkbsr hkbdr hwf ⊢
  exact ⟨hwf, hkbsr, hkbdr, h.latchHigh, h.devices, h.waiting⟩

theorem State.Inv.placeWords {s : State} (h : s.Inv) (addr : Word) (ws : List Word) : (placeWords addr ws s).Inv := by
  induction ws generalizing addr s with
  | nil => exact h
  | cons w ws ih => exact ih (h.memWrite addr w) (addr + 1#16)

theorem resetWith_inv {cfg : Config} (hdistinct : cfg.distinctDevices = true) (inp : InputPort) (out : OutputPort) :
    (resetWith cfg inp out).Inv :=
  ⟨rfl, rfl, rfl, (by decide : (0#16).extractLsb' 8 8 = 0#8), hdistinct, nofun⟩

/-- Settles O52: the reset state is the start of a run with the default parameters and no collaborator's data. -/
theorem resetInv : Obligations.ResetInv := resetWith_inv (cfg := Config.default) (by decide) _ _

/-- Settles O53: each word of the load is a store, and nothing waits when its status is set. -/
theorem bootInv : Obligations.BootInv := by
  intro cfg inp out img hdistinct
  obtain ⟨c, origin, ws, hboot⟩ := boot_eq_placeWords cfg inp out img
  obtain ⟨m, hm⟩ := placeWords_eq origin ws (resetWith cfg inp out)
  have hinv : (placeWords origin ws (resetWith cfg inp out)).Inv :=
    (resetWith_inv hdistinct inp out).placeWords origin ws
  rw [hboot]
  exact hinv.of_frame rfl rfl (.inl rfl) (by rw [hm]; exact fun hwait => absurd rfl hwait)

end Sys2Proof.Machine

/-! PROOFS. JSRR: the link first, then the base (43_jump.md R142). -/

namespace Sys2Proof.Machine

theorem exec_jsrr (b : Reg) (s : State) :
    exec (.jsrr b) s = .next (setPc (getReg b (linkR7 s)) (linkR7 s)) := rfl

theorem getReg_seven_linkR7 (s : State) : getReg 7 (linkR7 s) = s.pc := getReg_setReg_same s 7 s.pc

/-- Settles O30: the link leaves every other base register alone. -/
theorem jsrrResultAndFrame : Obligations.JsrrResultAndFrame := by
  intro b s hb
  have hbase : getReg b (linkR7 s) = getReg b s := getReg_setReg_ne s hb s.pc
  exact ⟨_, exec_jsrr b s, getReg_seven_linkR7 s, hbase, linkR7_frame s⟩

/-- Settles O31: the base read after the link is the link. -/
theorem jsrrThroughR7GoesOn : Obligations.JsrrThroughR7GoesOn :=
  fun s => ⟨_, exec_jsrr 7 s, getReg_seven_linkR7 s, getReg_seven_linkR7 s, linkR7_frame s⟩

end Sys2Proof.Machine

/-! PROOFS. The step: fetch, decode, execute; and a reserved word that is fetched (30_encoding.md R96, R97). -/

namespace Sys2Proof.Machine

section Step
variable {s m : State} {ir : Word}

theorem fetch_of_ok (hread : memRead s.pc s.pc s = .ok ir m) : fetch s = .ok ir (setPc (s.pc + 1#16) m) := by
  rw [fetch, hread, ok_andThen, (memRead_ok_ioOnly hread).1.pc]

theorem fetch_of_ended (hread : memRead s.pc s.pc s = .ended m) : fetch s = .ended m := by
  rw [fetch, hread, ended_andThen]

theorem step_of_read (hrunning : s.status = .running) (hwait : s.wait = none) (hread : memRead s.pc s.pc s = .ok ir m) :
    step s = exec (decode ir) (setPc (s.pc + 1#16) m) :=
  step_fetched hrunning hwait (fetch_of_ok hread)

theorem step_of_plain (hrunning : s.status = .running) (hwait : s.wait = none) (hplain : isDevice s.cfg s.pc = false) :
    step s = exec (decode (wordAt s.pc s)) (setPc (s.pc + 1#16) s) :=
  step_of_read hrunning hwait (memRead_plain hplain)

end Step

/-- Settles O48: the clauses are the answers of the fetch, and `decode_encode` for the last. -/
theorem stepRunsTheDecodedInstruction : Obligations.StepRunsTheDecodedInstruction := by
  refine ⟨fun s hover t => not_steps_of_over hover, fun s hrunning hwait => ⟨fun ir m hread => ?_, fun m hread => ?_,
    fun hplain i hwf hword => ?_⟩⟩
  · exact step_of_read hrunning hwait hread
  · exact ⟨m, step_failed hrunning hwait (fetch_of_ended hread), memRead_ended_status hread⟩
  · rw [step_of_plain hrunning hwait hplain, hword, decode_encode hwf]
    rfl

/-- The placement of the host is at an address that holds a word: two addresses in a row can be the two device
registers, a third cannot. -/
theorem fetchSlot_plain (s : State) : isDevice s.cfg (fetchSlot s) = false := by
  unfold fetchSlot
  split
  next hpc =>
    split
    next hnext =>
      simp only [isDevice, Bool.or_eq_true, Bool.or_eq_false_iff, beq_iff_eq, beq_eq_false_iff_ne] at *
      bv_omega
    next hnext => exact Bool.eq_false_of_not_eq_true hnext
  next hpc => exact Bool.eq_false_of_not_eq_true hpc

/-- Settles O49: the placed state runs, does not wait, and holds the word in plain storage at its `pc`. -/
theorem placedWordIsExecuted : Obligations.PlacedWordIsExecuted := by
  intro s n w hwf
  have hword : wordAt (s.withFetchWord n w).pc (s.withFetchWord n w) = BitVec.ofNat 16 w :=
    read_write_same hwf (fetchSlot s).toNat (BitVec.ofNat 16 w)
  rw [step_of_plain rfl rfl (fetchSlot_plain s), hword]
  rfl

/-- An instruction that uses all its bits keeps the whole word. -/
theorem encode_decode_of_full {ir : Word} (hfull : usedBits (decode ir) = BitVec.allOnes 16) :
    encode (decode ir) = ir := by
  have h := encode_decode ir
  rwa [hfull, BitVec.and_allOnes, BitVec.and_allOnes] at h

/-- A reserved word, as an instruction, raises `InvalidOpcode` with that word. -/
theorem exec_reserved {ir : Word} (hres : (∃ u, decode ir = .res u) ∨ ∃ u, decode ir = .rti u) (s : State) :
    exec (decode ir) s = .next (raise (.invalidOpcode (s.pc - 1#16) ir) s) := by
  rcases hres with ⟨u, hu⟩ | ⟨u, hu⟩
  · have hword : encode (.res u) = ir := hu ▸ encode_decode_of_full (hu ▸ rfl)
    rw [hu, exec_res, hword]
  · have hword : encode (.rti u) = ir := hu ▸ encode_decode_of_full (hu ▸ rfl)
    rw [hu, exec_rti, hword]

/-- Settles O47: the step is the reserved instruction's, whose own address is that of the fetch, and the run is then
over. -/
theorem reservedWordEndsTheRun : Obligations.ReservedWordEndsTheRun := by
  intro s m ir hrunning hwait hread hres
  have hstatus : (raise (.invalidOpcode (s.pc + 1#16 - 1#16) ir) (setPc (s.pc + 1#16) m)).status =
      .invalidOpcode s.pc ir := by rw [raise_status, BitVec.add_sub_cancel]
  refine ⟨_, (step_of_read hrunning hwait hread).trans (exec_reserved hres _), hstatus, fun u => ?_⟩
  exact not_steps_of_over (by rw [raise_status]; nofun)

end Sys2Proof.Machine

/-! PROOFS. TRAP and the services that follow no string: what each does for each answer of the collaborators
(44_trap.md R151, R160 to R166). -/

namespace Sys2Proof.Machine

/-! The registers after trap entry. -/

section Registers
variable {s m : State}

/-- A service that writes no register leaves the link. -/
theorem regs_of_trapEntry (hregs : m.regs = (trapEntry s).regs) : getReg 7 m = s.pc ∧ KeepsRegs [7] s m := by
  have hsame : ∀ r, getReg r m = getReg r (trapEntry s) := fun r => by rw [getReg, getReg, hregs]
  exact ⟨(hsame 7).trans (getReg_seven_linkR7 s), fun r hr => (hsame r).trans ((linkR7_frame s).1 r hr)⟩

/-- GETC and IN complete by a write of R0, which leaves the link and sets the flags. -/
theorem writeR0_of_trapEntry (v : Word) (hregs : m.regs = (trapEntry s).regs) :
    getReg 0 (writeDest 0 v m) = v ∧ getReg 7 (writeDest 0 v m) = s.pc ∧
      FlagsMatch (getReg 0 (writeDest 0 v m)) (writeDest 0 v m).cond ∧ KeepsRegs [0, 7] s (writeDest 0 v m) := by
  obtain ⟨hlink, hkeeps⟩ := regs_of_trapEntry hregs
  refine ⟨getReg_writeDest_same 0 v m, ?_, writeDest_flagsMatch 0 v m, fun r hr => ?_⟩
  · rw [writeDest_keepsRegs 0 v m 7 (by decide), hlink]
  · obtain ⟨h0, h7⟩ := not_or.1 (List.mem_cons.not.1 hr)
    rw [writeDest_keepsRegs 0 v m r (by simpa using h0), hkeeps r h7]

end Registers

/-! TRAP with a vector no service has, and OUT. -/

/-- Settles O32: after trap entry there is only the `raise`. -/
theorem unknownVectorIsInvalidTrap : Obligations.UnknownVectorIsInvalidTrap := by
  intro v s hv
  obtain ⟨hregs, hcond, hwords, hio, -⟩ := linkR7_frame s
  exact ⟨_, exec_trap_of_wellFormed (wellFormed_trap.2 hv), rfl, hregs, hcond, hwords, hio⟩

theorem andThen_ok (r : Flow Unit) : r.andThen (fun _ t => .ok () t) = r := by
  cases r <;> rfl

theorem outWrite_takes {a : Word} {b : Byte} {s : State} (htakes : Takes s.output 1) :
    outWrite a b s = .ok () (setOutput (afterBytes s.output [b]) s) :=
  (andThen_ok _).symm.trans (outBytes_takes (bs := [b]) htakes)

theorem outWrite_fails {a : Word} {b : Byte} {s : State} (hfail : s.output.failIn = some 0) :
    outWrite a b s = .ended (raise (.ioError a .output) s) := by
  rw [outWrite, hfail]

theorem getReg_zero_trapEntry (s : State) : getReg 0 (trapEntry s) = getReg 0 s :=
  getReg_setReg_ne s (by decide) s.pc

/-- Settles O34: the byte is taken, or the error is raised with nothing written. -/
theorem outWritesTheLowByte : Obligations.OutWritesTheLowByte := by
  refine fun s => ⟨fun htakes => ?_, fun hfail => ?_⟩
  · have hexec : exec .out s =
        .next (setOutput (afterBytes s.output [(getReg 0 s).extractLsb' 0 8]) (trapEntry s)) := by
      rw [exec, execOut, serviceOut, getReg_zero_trapEntry, outWrite_takes (s := trapEntry s) htakes, ok_outcome]
      rfl
    obtain ⟨hlink, hregs⟩ := regs_of_trapEntry (s := s) (m := trapEntry s) rfl
    exact ⟨_, hexec, rfl, hlink, hregs, rfl, rfl, fun _ _ => rfl, rfl, rfl, rfl, rfl, rfl⟩
  · have hexec : exec .out s = .next (raise (.ioError (s.pc - 1#16) .output) (trapEntry s)) := by
      rw [exec, execOut, serviceOut, outWrite_fails (s := trapEntry s) hfail, ended_outcome]
      rfl
    exact ⟨_, hexec, rfl, rfl⟩

/-! GETC, from the state after trap entry or from its wait. -/

section Getc
variable {s : State} {c : Byte} {q : InputPort}

theorem serviceGetc_of_supplies (hsup : Supplies s.input c q) :
    serviceGetc s = .next (writeDest 0 (c.setWidth 16) (setInput q (setWait none s))) := by
  rw [serviceGetc, getcBody, inRead_supplies (s := setWait none s) hsup, ok_andThen, ok_outcome]

theorem serviceGetc_of_fails (hfails : Fails s.input) :
    ∃ p, serviceGetc s = .next (raise (.ioError (s.pc - 1#16) .input) (setInput p (setWait none s))) := by
  obtain ⟨p, hread⟩ := inRead_fails (a := s.pc - 1#16) (s := setWait none s) hfails
  exact ⟨p, by rw [serviceGetc, getcBody, instrAddr_eq, setWait_pc, hread, ended_andThen, ended_outcome]⟩

theorem serviceGetc_of_silent (hsilent : Silent s.input) : serviceGetc s = .next (setWait (some .getc) s) := by
  rw [serviceGetc, getcBody, inRead_silent (s := setWait none s) hsilent, held_andThen, held_outcome, setWait_setWait]

theorem exec_getc (s : State) : exec .getc s = serviceGetc (trapEntry s) := rfl

end Getc

/-- Settles O33: what is written last is R0 with its flags, after trap entry and the read. -/
theorem getcReadsOneCharacter : Obligations.GetcReadsOneCharacter := by
  intro s c q hsup
  obtain ⟨h0, h7, hflags, hregs⟩ :=
    writeR0_of_trapEntry (s := s) (m := setInput q (setWait none (trapEntry s))) (c.setWidth 16) rfl
  exact ⟨_, serviceGetc_of_supplies (s := trapEntry s) hsup, h0, h7, hflags, rfl, hregs, rfl, fun _ _ => rfl, rfl, rfl,
    rfl, rfl, rfl⟩

/-! IN: its prompt, and what is left after it. -/

/-- The next bytes are all taken, or one of them is the one that fails. -/
theorem takes_or_fails (o : OutputPort) (n : Nat) : Takes o n ∨ ∃ k, o.failIn = some k ∧ k < n := by
  by_cases h : Takes o n
  · exact .inl h
  · simp only [Takes, not_forall, Nat.not_le] at h
    obtain ⟨k, hk, hlt⟩ := h
    exact .inr ⟨k, hk, hlt⟩

/-- The state of IN after its whole prompt. -/
def prompted (s : State) : State :=
  setOutput (afterBytes s.output s.cfg.inPrompt) (setWait none (trapEntry s))

section In
variable {s : State} {c : Byte} {q : InputPort}

theorem exec_inp_of_takes (htakes : Takes s.output s.cfg.inPrompt.length) :
    exec .inp s = (inBody (prompted s)).outcome (some .inp) := by
  have hprompt : outBytes (instrAddr (trapEntry s)) s.cfg.inPrompt (setWait none (trapEntry s)) =
      .ok () (prompted s) := outBytes_takes htakes
  rw [exec, execIn, serviceIn, trapEntry_cfg, hprompt, ok_andThen]

theorem exec_inp_of_prompt_fails {k : Nat} (hfail : s.output.failIn = some k) (hk : k < s.cfg.inPrompt.length) :
    ∃ f, exec .inp s = .next (raise (.ioError (s.pc - 1#16) .output)
      (setOutput ⟨s.output.written ++ s.cfg.inPrompt.take k, f⟩ (setWait none (trapEntry s)))) := by
  obtain ⟨f, hprompt⟩ := outBytes_fails (a := s.pc - 1#16) (s := setWait none (trapEntry s)) hfail hk
  refine ⟨f, ?_⟩
  rw [exec, execIn, serviceIn, instrAddr_eq, trapEntry_pc, trapEntry_cfg, hprompt, ended_andThen, ended_outcome]
  rfl

theorem inBody_of_supplies (hsup : Supplies s.input c q) (htakes : Takes s.output 1) :
    (inBody s).outcome (some .inp) =
      .next (writeDest 0 (c.setWidth 16) (setOutput (afterBytes s.output [c]) (setInput q s))) := by
  rw [inBody, inRead_supplies hsup, ok_andThen, outWrite_takes (s := setInput q s) htakes, ok_andThen, ok_outcome]
  rfl

theorem inBody_of_echo_fails (hsup : Supplies s.input c q) (hfail : s.output.failIn = some 0) :
    (inBody s).outcome (some .inp) = .next (raise (.ioError (s.pc - 1#16) .output) (setInput q s)) := by
  rw [inBody, inRead_supplies hsup, ok_andThen, outWrite_fails (s := setInput q s) hfail, ended_andThen, ended_outcome]
  rfl

theorem inBody_of_fails (hfails : Fails s.input) :
    ∃ p, (inBody s).outcome (some .inp) = .next (raise (.ioError (s.pc - 1#16) .input) (setInput p s)) := by
  obtain ⟨p, hread⟩ := inRead_fails (a := s.pc - 1#16) hfails
  exact ⟨p, by rw [inBody, instrAddr_eq, hread, ended_andThen, ended_outcome]⟩

theorem inBody_of_silent (hsilent : Silent s.input) :
    (inBody s).outcome (some .inp) = .next (setWait (some .inp) s) := by
  rw [inBody, inRead_silent hsilent, held_andThen, held_outcome]

end In

/-- Settles O39: the prompt and the echo are one list of bytes, and R0 with its flags is written last. -/
theorem inPromptsReadsAndEchoes : Obligations.InPromptsReadsAndEchoes := by
  intro s c q hsup htakes
  have hexec := exec_inp_of_takes (htakes.mono (Nat.le_succ _))
  rw [inBody_of_supplies (s := prompted s) hsup htakes.after] at hexec
  obtain ⟨h0, h7, hflags, hregs⟩ := writeR0_of_trapEntry (s := s)
    (m := setOutput (afterBytes (prompted s).output [c]) (setInput q (prompted s))) (c.setWidth 16) rfl
  exact ⟨_, hexec, afterBytes_append s.output s.cfg.inPrompt [c], h0, h7, hflags, rfl, hregs, rfl, fun _ _ => rfl, rfl,
    rfl, rfl, rfl⟩

/-! Waiting (R34, R209). -/

theorem step_waiting_getc {s : State} (hrunning : s.status = .running) (hwait : s.wait = some .getc) :
    step s = serviceGetc s := step_waiting hrunning hwait

theorem step_waiting_inp {s : State} (hrunning : s.status = .running) (hwait : s.wait = some .inp) :
    step s = (inBody (setWait none s)).outcome (some .inp) := step_waiting hrunning hwait

/-- Settles O43: a held service notes its wait and is held again by the next step; a read of memory answers at once. -/
theorem inputWaitHoldsTheStep : Obligations.InputWaitHoldsTheStep := by
  refine ⟨fun s hsilent hrunning => ⟨?_, fun htakes => ?_⟩, fun a addr s t hheld => ?_⟩
  · exact ⟨_, serviceGetc_of_silent (s := trapEntry s) hsilent, rfl,
      Eq.trans (step_waiting_getc hrunning rfl) (serviceGetc_of_silent hsilent)⟩
  · exact ⟨_, (exec_inp_of_takes htakes).trans (inBody_of_silent (s := prompted s) hsilent), rfl, rfl,
      Eq.trans (step_waiting_inp hrunning rfl) (inBody_of_silent (s := prompted s) hsilent)⟩
  · rcases memRead_ends a addr s with ⟨v, m, hread⟩ | ⟨m, hread⟩ <;> rw [hread] at hheld <;> cases hheld

/-- IN that neither ended nor failed in its prompt on silent input has written the whole of it and waits. -/
theorem exec_inp_waits {s t : State} (hsilent : Silent s.input) (hexec : exec .inp s = .next t)
    (hrunning : t.status = .running) :
    Takes s.output s.cfg.inPrompt.length ∧ t = setWait (some .inp) (prompted s) := by
  rcases takes_or_fails s.output s.cfg.inPrompt.length with htakes | ⟨k, hfail, hk⟩
  · rw [exec_inp_of_takes htakes, inBody_of_silent (s := prompted s) hsilent] at hexec
    cases hexec
    exact ⟨htakes, rfl⟩
  · obtain ⟨f, hended⟩ := exec_inp_of_prompt_fails hfail hk
    rw [hended] at hexec
    cases hexec
    cases hrunning

/-- An error that comes to silent input, or the end of it, makes the next `InRead` fail. -/
theorem fails_of_arrival {t t' : State} (ht' : t' = inputArrives .error t ∨ t' = inputEnds t)
    (hsilent : Silent t.input) : Fails t'.input := by
  obtain ⟨hqueue, -⟩ := hsilent
  rcases ht' with rfl | rfl
  · exact .inl ⟨[], by simp [inputArrives, hqueue]⟩
  · exact .inr ⟨hqueue, rfl⟩

/-- What comes to the input moves nothing else. -/
theorem eq_setInput_of_arrival {t t' : State} (ht' : t' = inputArrives .error t ∨ t' = inputEnds t) :
    ∃ p, t' = setInput p t := by
  rcases ht' with rfl | rfl <;> exact ⟨_, rfl⟩

/-- Settles O44: the wait is the state before the read, so the next step makes the same read, in GETC from the state
after trap entry, in IN from the state after the prompt. -/
theorem waitingDoesNotChangeTheResult : Obligations.WaitingDoesNotChangeTheResult := by
  rintro i s t (rfl | rfl) hsilent hrunning hexec hgoes
  · rw [exec_getc, serviceGetc_of_silent (s := trapEntry s) hsilent] at hexec
    cases hexec
    refine ⟨fun c => step_waiting_getc hrunning rfl, fun t' ht' => ?_⟩
    have hfails := fails_of_arrival ht' hsilent
    obtain ⟨p, rfl⟩ := eq_setInput_of_arrival ht'
    obtain ⟨p', hserve⟩ := serviceGetc_of_fails hfails
    exact ⟨_, Eq.trans (step_waiting_getc hrunning rfl) hserve, rfl, (regs_of_trapEntry rfl).2, rfl,
      fun _ _ => rfl, rfl, rfl, rfl, rfl⟩
  · obtain ⟨htakes, rfl⟩ := exec_inp_waits hsilent hexec hgoes
    refine ⟨fun c => ?_, fun t' ht' => ?_⟩
    · rw [exec_inp_of_takes (s := inputArrives (.char c) s) htakes]
      exact step_waiting_inp hrunning rfl
    · have hfails := fails_of_arrival ht' hsilent
      obtain ⟨p, rfl⟩ := eq_setInput_of_arrival ht'
      obtain ⟨p', hserve⟩ := inBody_of_fails (s := setWait none (setInput p (setWait (some .inp) (prompted s)))) hfails
      exact ⟨_, Eq.trans (step_waiting_inp hrunning rfl) hserve, rfl, (regs_of_trapEntry rfl).2, rfl,
        fun _ _ => rfl, rfl, rfl, rfl, rfl⟩

end Sys2Proof.Machine

/-! PROOFS. A string and its bound: a string the read path never ends reads the same words for ever after the keyboard's
queued answers are used up (44_trap.md R164, R170; 93_implementation_defined.md I14). -/

namespace Sys2Proof.Machine

/-! What a string that has not ended has read and written. -/

section Loop
variable {emit : Word → List Byte} {a p : Word} {s m : State} {n : Nat}

/-- A string that ends is followed no further. -/
theorem stringLoop_add (k : Nat) (hends : ∀ b, stringLoop emit a n p s ≠ .endless b) :
    stringLoop emit a (n + k) p s = stringLoop emit a n p s := by
  induction n generalizing p s with
  | zero => exact absurd rfl (hends a)
  | succ n ih =>
    rw [Nat.add_right_comm]
    simp only [stringLoop] at hends ⊢
    cases hread : memRead a p s with
    | ok w t =>
      rw [hread, ok_andThen] at hends
      rw [ok_andThen, ok_andThen]
      split
      next => rfl
      next hw =>
        rw [if_neg hw] at hends
        cases hout : outBytes a (emit w) t with
        | ok v u =>
          rw [hout, ok_andThen] at hends
          exact ih hends
        | ended u | held u | endless b => rfl
    | ended t | held t | endless b => rfl

/-- Output that takes a list of bytes and then more takes them all. -/
theorem Takes.append {o : OutputPort} {xs : List Byte} {k : Nat} (h : Takes o xs.length)
    (h' : Takes (afterBytes o xs) k) : Takes o (xs.length + k) := by
  intro j hj
  have hxs : xs.length ≤ j := h j hj
  have hk : k ≤ j - xs.length := h' (j - xs.length) (by rw [afterBytes, hj]; rfl)
  omega

/-- A string not ended within `n` words has read `n` words that are not 0, and its bytes were all taken. -/
theorem reads_of_endless {b : Word} (h : stringLoop emit a n p s = .endless b) :
    ∃ ws m, ws.length = n ∧ ReadsFrom a p ws s m ∧ 0#16 ∉ ws ∧ Takes s.output (ws.flatMap emit).length := by
  induction n generalizing p s with
  | zero => exact ⟨[], s, rfl, rfl, List.not_mem_nil, fun _ _ => Nat.zero_le _⟩
  | succ n ih =>
    rw [stringLoop] at h
    rcases memRead_ends a p s with ⟨w, t, hread⟩ | ⟨t, hread⟩
    · rw [hread, ok_andThen] at h
      by_cases hw : w = 0#16
      · rw [if_pos hw] at h
        cases h
      · rw [if_neg hw] at h
        rcases takes_or_fails t.output (emit w).length with htakes | ⟨k, hfail, hk⟩
        · rw [outBytes_takes htakes, ok_andThen] at h
          obtain ⟨ws, m, hlen, hreads, h0, hmore⟩ := ih h
          have hout : t.output = s.output := (memRead_ok_ioOnly hread).2.2
          refine ⟨w :: ws, setOutput t.output m, by rw [List.length_cons, hlen],
            ⟨t, hread, hreads.withOutput t.output⟩, by simp [h0, Ne.symm hw], ?_⟩
          rw [List.flatMap_cons, List.length_append, ← hout]
          exact htakes.append hmore
        · obtain ⟨f, hout⟩ := outBytes_fails (a := a) hfail hk
          rw [hout, ended_andThen] at h
          cases h
    · rw [hread, ended_andThen] at h
      cases h

theorem endless_of_reads {ws : List Word} (hreads : ReadsFrom a p ws s m) (h0 : 0#16 ∉ ws)
    (htakes : Takes s.output (ws.flatMap emit).length) : stringLoop emit a ws.length p s = .endless a := by
  have h := stringLoop_reads 0 hreads h0 htakes
  rwa [Nat.zero_add] at h

end Loop

/-! The words read, one by one. -/

section Reads
variable {a p : Word} {s t : State} {ws : List Word}

/-- The read of the word at place `k`, between the reads before it and the reads after it. -/
theorem ReadsFrom.split_at {k : Nat} (h : ReadsFrom a p ws s t) (hk : k < ws.length) :
    ∃ m m', ReadsFrom a p (ws.take k) s m ∧ memRead a (p + BitVec.ofNat 16 k) m = .ok ws[k] m' ∧
      ReadsFrom a (p + BitVec.ofNat 16 k + 1#16) (ws.drop (k + 1)) m' t := by
  rw [← List.take_append_drop k ws, List.drop_eq_getElem_cons hk] at h
  obtain ⟨m, hbefore, m', hread, hafter⟩ := readsFrom_append.1 h
  rw [List.length_take_of_le (Nat.le_of_lt hk)] at hread hafter
  exact ⟨m, m', hbefore, hread, hafter⟩

/-- The reads in two parts, the first of `i` words. -/
theorem ReadsFrom.split_length {i j : Nat} (h : ReadsFrom a p ws s t) (hlen : ws.length = i + j) (h0 : 0#16 ∉ ws) :
    ∃ xs ys m, xs.length = i ∧ ys.length = j ∧ 0#16 ∉ xs ∧ 0#16 ∉ ys ∧
      ReadsFrom a p xs s m ∧ ReadsFrom a (p + BitVec.ofNat 16 xs.length) ys m t := by
  rw [← List.take_append_drop i ws] at h h0
  obtain ⟨m, hxs, hys⟩ := readsFrom_append.1 h
  obtain ⟨hzero, hzero'⟩ := not_or.1 (List.mem_append.not.1 h0)
  exact ⟨_, _, m, by rw [List.length_take]; omega, by rw [List.length_drop]; omega, hzero, hzero', hxs, hys⟩

/-- Every address is at some place after `p` in one pass over the address space. -/
theorem add_ofNat_sub_toNat (addr p : Word) : p + BitVec.ofNat 16 (addr - p).toNat = addr := by
  bv_omega

/-- Only a read of KBSR moves anything. -/
theorem memRead_eq_of_ne_kbsr {addr w : Word} (hne : addr ≠ s.cfg.kbsrAddr) (h : memRead a addr s = .ok w t) :
    t = s := by
  rw [memRead, if_neg hne] at h
  split at h <;> cases h <;> rfl

theorem ReadsFrom.eq_of_no_kbsr (h : ReadsFrom a p ws s t)
    (hno : ∀ k < ws.length, p + BitVec.ofNat 16 k ≠ s.cfg.kbsrAddr) : t = s := by
  induction ws generalizing p s with
  | nil => exact h
  | cons w ws ih =>
    obtain ⟨m, hread, hrest⟩ := h
    have hne : p ≠ s.cfg.kbsrAddr := by simpa using hno 0 (Nat.zero_lt_succ _)
    obtain rfl := memRead_eq_of_ne_kbsr hne hread
    exact ih hrest fun k hk => addr_succ p k ▸ hno (k + 1) (Nat.succ_lt_succ hk)

end Reads

/-! One pass over the address space: one poll of KBSR. -/

/-- What a poll that reads other than 0x0000 takes: one poll answer, and one queued answer if there is one; otherwise
the character the input always has, which is then in the latch. -/
structure PolledOnce (s t : State) : Prop where
  queue : t.input.queue = s.input.queue.tail
  polls : t.input.polls = s.input.polls.tail
  tail : t.input.tail = s.input.tail
  latch : s.input.queue = [] → ∃ c, s.input.tail = .endless c ∧ t.kbdrLatch = c.setWidth 16

section Passes
variable {a p : Word} {s t : State} {ws : List Word}

theorem polledOnce_of_kbsrRead {w : Word} (h : kbsrRead a s = .ok w t) (hw : w ≠ 0#16) : PolledOnce s t := by
  obtain ⟨c, q, hsup, rfl⟩ := kbsrRead_nonzero h hw
  rcases hsup with ⟨rest, hqueue, rfl⟩ | ⟨hqueue, htail, rfl⟩
  · exact ⟨by rw [hqueue]; rfl, rfl, rfl, fun hnil => by rw [hqueue] at hnil; cases hnil⟩
  · exact ⟨by rw [hqueue]; rfl, rfl, rfl, fun _ => ⟨c, htail, rfl⟩⟩

/-- Of the addresses of one pass exactly one is KBSR's. -/
theorem ReadsFrom.pass (h : ReadsFrom a p ws s t) (hlen : ws.length = 65536) (h0 : 0#16 ∉ ws) : PolledOnce s t := by
  have hplace : p + BitVec.ofNat 16 (s.cfg.kbsrAddr - p).toNat = s.cfg.kbsrAddr := add_ofNat_sub_toNat _ p
  have hlt : (s.cfg.kbsrAddr - p).toNat < ws.length := hlen ▸ BitVec.isLt _
  obtain ⟨m, m', hbefore, hread, hafter⟩ := h.split_at hlt
  generalize hplaceEq : (s.cfg.kbsrAddr - p).toNat = k at *
  have hm : m = s := by
    refine hbefore.eq_of_no_kbsr fun j hj => ?_
    rw [List.length_take] at hj
    bv_omega
  subst hm
  rw [hplace, memRead_kbsr rfl] at hread
  have hpolled := polledOnce_of_kbsrRead hread fun hw => h0 (hw ▸ List.getElem_mem hlt)
  have hcfg : m'.cfg = m.cfg := by
    rw [← memRead_kbsr rfl] at hread
    exact (memRead_ok_ioOnly hread).1.cfg
  have ht : t = m' := by
    refine hafter.eq_of_no_kbsr fun j hj => ?_
    rw [List.length_drop] at hj
    rw [hcfg]
    bv_omega
  exact ht ▸ hpolled

theorem ReadsFrom.passes {j : Nat} (h : ReadsFrom a p ws s t) (hlen : ws.length = 65536 * j) (h0 : 0#16 ∉ ws) :
    t.input.queue = s.input.queue.drop j ∧ t.input.polls = s.input.polls.drop j ∧ t.input.tail = s.input.tail := by
  induction j generalizing p s ws with
  | zero =>
    obtain rfl := List.length_eq_zero_iff.1 hlen
    obtain rfl := h
    exact ⟨rfl, rfl, rfl⟩
  | succ j ih =>
    obtain ⟨xs, ys, m, hxs, hys, hzero, hzero', hfirst, hrest⟩ :=
      h.split_length (i := 65536) (j := 65536 * j) (by omega) h0
    have hpolled := hfirst.pass hxs hzero
    obtain ⟨hqueue, hpolls, htail⟩ := ih hrest hys hzero'
    rw [hpolled.queue, List.drop_tail] at hqueue
    rw [hpolled.polls, List.drop_tail] at hpolls
    exact ⟨hqueue, hpolls, htail.trans hpolled.tail⟩

end Passes

/-! After the queued answers: reads that change nothing. -/

/-- Every read gives a word and moves nothing. -/
def Steady (a : Word) (s : State) : Prop := ∀ addr, ∃ w, memRead a addr s = .ok w s

section Steady
variable {a p : Word} {s t : State} {ws : List Word}

/-- With no queued answer left, an endless input whose character is already in the latch is steady. -/
theorem steady_of_endless {c : Byte} (hqueue : s.input.queue = []) (hpolls : s.input.polls = [])
    (htail : s.input.tail = .endless c) (hlatch : s.kbdrLatch = c.setWidth 16) : Steady a s := by
  intro addr
  by_cases haddr : addr = s.cfg.kbsrAddr
  · have hsame : setLatch (c.setWidth 16) (setInput { s.input with polls := s.input.polls.tail } s) = s := by
      have hnone : s.input.polls.tail = s.input.polls := by rw [hpolls, List.tail_nil]
      rw [hnone, ← hlatch]
      rfl
    have hread := kbsrRead_supplies (a := a) (s := s) (by rw [hpolls]; rfl) (.inr ⟨hqueue, htail, rfl⟩)
    rw [hsame] at hread
    exact ⟨_, (memRead_kbsr haddr).trans hread⟩
  · rcases memRead_ends a addr s with ⟨w, m, hread⟩ | ⟨m, hread⟩
    · obtain rfl := memRead_eq_of_ne_kbsr haddr hread
      exact ⟨w, hread⟩
    · rw [memRead, if_neg haddr] at hread
      split at hread <;> cases hread

/-- How many answers the keyboard has queued, characters, errors and poll answers together. -/
def queuedAnswers (s : State) : Nat := s.input.queue.length + s.input.polls.length

theorem stringBound_eq (s : State) :
    stringBound s = 65536 * (queuedAnswers s + 1) + (131072 + s.output.failIn.getD 0) := by
  rw [stringBound, queuedAnswers]
  omega

/-- One pass for each queued answer and each poll answer, and one more, come to a steady state, unless a word read is
0; the input is then endless. -/
theorem ReadsFrom.steady (h : ReadsFrom a p ws s t)
    (hlen : ws.length = 65536 * (queuedAnswers s + 1)) (h0 : 0#16 ∉ ws) :
    Steady a t ∧ ∃ c, s.input.tail = .endless c := by
  obtain ⟨xs, ys, m, hxs, hys, hzero, hzero', hfirst, hlast⟩ :=
    h.split_length (i := 65536 * queuedAnswers s) (j := 65536) (by omega) h0
  obtain ⟨hqueue, hpolls, htail⟩ := hfirst.passes hxs hzero
  rw [queuedAnswers, List.drop_of_length_le (Nat.le_add_right _ _)] at hqueue
  rw [queuedAnswers, List.drop_of_length_le (Nat.le_add_left _ _)] at hpolls
  have hpolled := hlast.pass hys hzero'
  obtain ⟨c, hc, hlatch⟩ := hpolled.latch hqueue
  refine ⟨steady_of_endless ?_ ?_ (hpolled.tail.trans hc) hlatch, c, htail ▸ hc⟩
  · rw [hpolled.queue, hqueue, List.tail_nil]
  · rw [hpolled.polls, hpolls, List.tail_nil]

theorem Steady.memRead_eq (hs : Steady a s) {addr w : Word} (h : memRead a addr s = .ok w t) : t = s := by
  obtain ⟨w', hread⟩ := hs addr
  rw [hread] at h
  cases h
  rfl

theorem Steady.reads_eq (hs : Steady a s) (h : ReadsFrom a p ws s t) : t = s := by
  induction ws generalizing p with
  | nil => exact h
  | cons w ws ih =>
    obtain ⟨m, hread, hrest⟩ := h
    obtain rfl := hs.memRead_eq hread
    exact ih hrest

/-- From a steady state one whole pass without a 0 shows that no address reads as 0. -/
theorem Steady.nonzero (hs : Steady a s) (h : ReadsFrom a p ws s t) (hlen : 65536 ≤ ws.length) (h0 : 0#16 ∉ ws)
    (addr : Word) : ∃ w, memRead a addr s = .ok w s ∧ w ≠ 0#16 := by
  have hlt : (addr - p).toNat < ws.length := lt_of_lt_of_le (BitVec.isLt _) hlen
  obtain ⟨m, m', hbefore, hread, -⟩ := h.split_at hlt
  obtain rfl := hs.reads_eq hbefore
  obtain rfl := hs.memRead_eq hread
  rw [add_ofNat_sub_toNat] at hread
  exact ⟨_, hread, fun hw => h0 (hw ▸ List.getElem_mem hlt)⟩

/-- Where no address reads as 0, reads go on for ever. -/
theorem exists_reads_of_nonzero (hnonzero : ∀ addr, ∃ w, memRead a addr s = .ok w s ∧ w ≠ 0#16) (n : Nat) (p : Word) :
    ∃ ws, ws.length = n ∧ ReadsFrom a p ws s s ∧ 0#16 ∉ ws := by
  induction n generalizing p with
  | zero => exact ⟨[], rfl, rfl, List.not_mem_nil⟩
  | succ n ih =>
    obtain ⟨w, hread, hw⟩ := hnonzero p
    obtain ⟨ws, hlen, hreads, h0⟩ := ih (p + 1#16)
    exact ⟨w :: ws, by rw [List.length_cons, hlen], ⟨s, hread, hreads⟩, by simp [h0, Ne.symm hw]⟩

end Steady

/-! The bound. -/

section Bound
variable {emit : Word → List Byte} {a p : Word} {s : State}

/-- Output that never fails takes everything. -/
theorem takes_of_never {o : OutputPort} (h : o.failIn = none) (n : Nat) : Takes o n := by
  intro k hk
  rw [h] at hk
  cases hk

theorem length_le_length_flatMap (hemit : ∀ w, 0 < (emit w).length) (ws : List Word) :
    ws.length ≤ (ws.flatMap emit).length := by
  induction ws with
  | nil => exact Nat.zero_le _
  | cons w ws ih =>
    rw [List.length_cons, List.flatMap_cons, List.length_append]
    have := hemit w
    omega

/-- A string not ended within its bound has output that never fails, since every word writes a byte. -/
theorem failIn_of_reads (hemit : ∀ w, 0 < (emit w).length) {ws : List Word} (hlen : ws.length = stringBound s)
    (htakes : Takes s.output (ws.flatMap emit).length) : s.output.failIn = none := by
  cases hfail : s.output.failIn with
  | none => rfl
  | some k =>
    have hk : (ws.flatMap emit).length ≤ k := htakes k hfail
    have hle := length_le_length_flatMap hemit ws
    rw [stringBound, hfail, Option.getD_some] at hlen
    omega

/-- A string not ended within its bound goes on for any number of words: once the queued answers are used up, one more
pass shows every address to read as a word that is not 0. -/
theorem endless_of_endless_at_bound (hemit : ∀ w, 0 < (emit w).length) {b : Word}
    (h : stringLoop emit a (stringBound s) p s = .endless b) (n : Nat) :
    stringLoop emit a (stringBound s + n) p s = .endless a := by
  obtain ⟨ws, m, hlen, hreads, h0, htakes⟩ := reads_of_endless h
  have hnever : s.output.failIn = none := failIn_of_reads hemit hlen htakes
  have hbound := stringBound_eq s
  rw [hnever, Option.getD_none] at hbound
  obtain ⟨xs, ys, t, hxs, hys, hzero, hzero', hfirst, hrest⟩ := hreads.split_length (hlen.trans hbound) h0
  obtain ⟨hsteady, -⟩ := hfirst.steady hxs hzero
  have hnonzero := hsteady.nonzero hrest (by omega) hzero'
  obtain ⟨vs, hvs, hmore, hzeroVs⟩ := exists_reads_of_nonzero hnonzero (131072 + n) (p + BitVec.ofNat 16 xs.length)
  have hall := endless_of_reads (emit := emit) (readsFrom_append.2 ⟨t, hfirst, hmore⟩) (by simp [hzero, hzeroVs])
    (takes_of_never hnever _)
  have hcount : (xs ++ vs).length = stringBound s + n := by
    rw [List.length_append]
    omega
  rwa [hcount] at hall

theorem stringLoop_bound (hemit : ∀ w, 0 < (emit w).length) (a p : Word) (s : State) (n : Nat) :
    stringLoop emit a (stringBound s + n) p s = stringLoop emit a (stringBound s) p s := by
  by_cases hends : ∃ b, stringLoop emit a (stringBound s) p s = .endless b
  · obtain ⟨b, hb⟩ := hends
    have hbound := endless_of_endless_at_bound hemit hb 0
    rw [endless_of_endless_at_bound hemit hb n, ← hbound, Nat.add_zero]
  · exact stringLoop_add n (not_exists.1 hends)

/-- On finite input a string ends within its bound. -/
theorem stringLoop_ends (hfin : FiniteInput s.input) (b : Word) :
    stringLoop emit a (stringBound s) p s ≠ .endless b := by
  intro h
  obtain ⟨ws, m, hlen, hreads, h0, -⟩ := reads_of_endless h
  obtain ⟨xs, ys, t, hxs, -, hzero, -, hfirst, -⟩ := hreads.split_length (hlen.trans (stringBound_eq s)) h0
  obtain ⟨-, c, hc⟩ := hfirst.steady hxs hzero
  exact hfin c hc

theorem length_putsBytes_pos (w : Word) : 0 < (putsBytes w).length := Nat.zero_lt_one

theorem length_putspBytes_pos (w : Word) : 0 < (putspBytes w).length := by
  unfold putspBytes
  split <;> exact Nat.zero_lt_succ _

end Bound

/-- Settles O38: both services write a byte for every word. -/
theorem stringBoundIsEnough : Obligations.StringBoundIsEnough := fun s a p n =>
  ⟨stringLoop_bound length_putsBytes_pos a p s n, stringLoop_bound length_putspBytes_pos a p s n⟩

end Sys2Proof.Machine

/-! PROOFS. PUTS and PUTSP along the words they read, and the failures of input and output in every service
(44_trap.md R160 to R172; 60_exceptions.md R189). -/

namespace Sys2Proof.Machine

/-! The frame of a service that writes no register but the link. -/

theorem IoOnly.afterTrapEntry {s m : State} (h : IoOnly s m) : IoOnly (trapEntry s) (trapEntry m) where
  regs := by simp only [trapEntry, linkR7, setReg, h.regs, h.pc]
  pc := h.pc
  cond := h.cond
  mem := h.mem
  wait := h.wait
  cfg := h.cfg

/-- What stays where only the latch, the status and the collaborators have moved since trap entry. -/
theorem frame_of_trapEntry {s t : State} (h : IoOnly (trapEntry s) t) :
    getReg 7 t = s.pc ∧ KeepsRegs [7] s t ∧ t.cond = s.cond ∧ t.pc = s.pc ∧ KeepsWords [] s t := by
  obtain ⟨hlink, hregs⟩ := regs_of_trapEntry h.regs
  exact ⟨hlink, hregs, h.cond, h.pc, fun addr _ => by rw [wordAt, wordAt, h.mem, trapEntry_mem]⟩

/-! A string service, along the words the read path gives it. -/

section Strings
variable {i : Instr} {emit : Word → List Byte} {s m : State} {ws : List Word}

theorem StringService.emits (h : StringService i emit) (w : Word) : 0 < (emit w).length := by
  rcases h with ⟨-, rfl⟩ | ⟨-, rfl⟩
  · exact length_putsBytes_pos w
  · exact length_putspBytes_pos w

theorem exec_string (h : StringService i emit) (s : State) :
    exec i s = (stringLoop emit (s.pc - 1#16) (stringBound s) (getReg 0 s) (trapEntry s)).outcome none := by
  have hservice : exec i s = (writeString emit (trapEntry s)).outcome none := by
    rcases h with ⟨rfl, rfl⟩ | ⟨rfl, rfl⟩ <;> rfl
  rw [hservice, writeString, getReg_zero_trapEntry]
  rfl

/-- The state of a string after words read up to `m`, with their bytes written. -/
def writtenUpTo (emit : Word → List Byte) (s m : State) (ws : List Word) : State :=
  setOutput (afterBytes s.output (ws.flatMap emit)) (trapEntry m)

/-- A string comes past any words read that are not 0, however long, and stands before the next word. -/
theorem exec_string_of_reads (h : StringService i emit) (hreads : ReadsFrom (s.pc - 1#16) (getReg 0 s) ws s m)
    (h0 : 0#16 ∉ ws) (htakes : Takes s.output (ws.flatMap emit).length) :
    exec i s = (stringLoop emit (s.pc - 1#16) (stringBound s + 1) (getReg 0 s + BitVec.ofNat 16 ws.length)
      (writtenUpTo emit s m ws)).outcome none := by
  have hbound := stringLoop_bound h.emits (s.pc - 1#16) (getReg 0 s) (trapEntry s) (1 + ws.length)
  have hloop := stringLoop_reads (s := trapEntry s) (stringBound s + 1) hreads.afterLink h0 htakes
  rw [← Nat.add_assoc] at hbound
  rw [exec_string h]
  exact congrArg (Flow.outcome none) (hbound.symm.trans hloop)

theorem memRead_writtenUpTo {a addr w : Word} {m' : State} (hread : memRead a addr m = .ok w m') :
    memRead a addr (writtenUpTo emit s m ws) = .ok w (writtenUpTo emit s m' ws) :=
  memRead_setOutput _ (memRead_linkR7 hread)

/-- A string ends at a whole zero word. -/
theorem exec_string_completes (h : StringService i emit)
    (hreads : ReadsFrom (s.pc - 1#16) (getReg 0 s) (ws ++ [0#16]) s m) (h0 : 0#16 ∉ ws)
    (htakes : Takes s.output (ws.flatMap emit).length) : exec i s = .next (writtenUpTo emit s m ws) := by
  obtain ⟨m', hbefore, hlast⟩ := readsFrom_append.1 hreads
  obtain ⟨m, hread, rfl⟩ := hlast
  rw [exec_string_of_reads h hbefore h0 htakes, stringLoop, memRead_writtenUpTo hread, ok_andThen, if_pos rfl,
    ok_outcome]

/-- A string ends in the `IoError` of a poll that fails. -/
theorem exec_string_poll_fails (h : StringService i emit) (hreads : ReadsFrom (s.pc - 1#16) (getReg 0 s) ws s m)
    (h0 : 0#16 ∉ ws) (htakes : Takes s.output (ws.flatMap emit).length) {e : State}
    (hfail : memRead (s.pc - 1#16) (getReg 0 s + BitVec.ofNat 16 ws.length) m = .ended e) :
    ∃ t, exec i s = .next t ∧ IoOnly (writtenUpTo emit s m ws) t ∧ t.status = .ioError (s.pc - 1#16) .input ∧
      t.output = afterBytes s.output (ws.flatMap emit) := by
  have hread := memRead_ended_congr (trapEntry m).regs (afterBytes s.output (ws.flatMap emit)) hfail
  obtain ⟨hio, hstatus, hout, -⟩ := memRead_ended_ioOnly hread
  refine ⟨_, ?_, hio, hstatus, hout⟩
  rw [exec_string_of_reads h hreads h0 htakes, stringLoop]
  exact congrArg (fun r => Flow.outcome none (Flow.andThen r _)) hread

/-- A string ends in the `IoError` of a byte that fails, the bytes before it written. -/
theorem exec_string_byte_fails (h : StringService i emit) {w : Word} {k : Nat}
    (hreads : ReadsFrom (s.pc - 1#16) (getReg 0 s) (ws ++ [w]) s m) (h0 : 0#16 ∉ ws ++ [w])
    (hfail : s.output.failIn = some k) (hbefore : (ws.flatMap emit).length ≤ k)
    (hbyte : k < ((ws ++ [w]).flatMap emit).length) :
    ∃ f, exec i s = .next (raise (.ioError (s.pc - 1#16) .output)
      (setOutput ⟨s.output.written ++ ((ws ++ [w]).flatMap emit).take k, f⟩ (trapEntry m))) := by
  obtain ⟨m', hfirst, hlast⟩ := readsFrom_append.1 hreads
  obtain ⟨m, hread, rfl⟩ := hlast
  obtain ⟨hzero, hw⟩ := not_or.1 (List.mem_append.not.1 h0)
  have htakes : Takes s.output (ws.flatMap emit).length := fun j hj => by
    rw [hfail] at hj
    cases hj
    exact hbefore
  have hfailW : (writtenUpTo emit s m ws).output.failIn = some (k - (ws.flatMap emit).length) := by
    simp [writtenUpTo, afterBytes, hfail]
  have hlt : k - (ws.flatMap emit).length < (emit w).length := by
    simp only [List.flatMap_append, List.flatMap_singleton, List.length_append] at hbyte
    omega
  obtain ⟨f, hout⟩ := outBytes_fails (a := s.pc - 1#16) hfailW hlt
  have hwritten : ((ws ++ [w]).flatMap emit).take k =
      ws.flatMap emit ++ (emit w).take (k - (ws.flatMap emit).length) := by
    rw [List.flatMap_append, List.flatMap_singleton, List.take_append, List.take_of_length_le hbefore]
  refine ⟨f, ?_⟩
  rw [exec_string_of_reads h hfirst hzero htakes, stringLoop, memRead_writtenUpTo hread, ok_andThen,
    if_neg fun hzeroW => hw (List.mem_singleton.2 hzeroW.symm), hout, ended_andThen, ended_outcome, hwritten,
    ← List.append_assoc]
  rfl

/-- A string that completes writes its bytes and leaves what `frame_of_trapEntry` says. -/
theorem string_completes (h : StringService i emit)
    (hreads : ReadsFrom (s.pc - 1#16) (getReg 0 s) (ws ++ [0#16]) s m) (h0 : 0#16 ∉ ws)
    (htakes : Takes s.output (ws.flatMap emit).length) :
    ∃ t, exec i s = .next t ∧ t.output = afterBytes s.output (ws.flatMap emit) ∧ getReg 7 t = s.pc ∧
      KeepsRegs [7] s t ∧ t.cond = s.cond ∧ t.pc = s.pc ∧ KeepsWords [] s t ∧
      t.kbdrLatch = m.kbdrLatch ∧ t.input = m.input ∧ KeepsRun s t := by
  obtain ⟨hio, hstatus, -⟩ := hreads.frame
  obtain ⟨hlink, hregs, hcond, hpc, hwords⟩ := frame_of_trapEntry hio.afterTrapEntry
  exact ⟨_, exec_string_completes h hreads h0 htakes, rfl, hlink, hregs, hcond, hpc, hwords, rfl, rfl,
    hio.cfg, hstatus, hio.wait⟩

end Strings

theorem flatMap_putsBytes (ws : List Word) : ws.flatMap putsBytes = ws.map (·.extractLsb' 0 8) := by
  induction ws with
  | nil => rfl
  | cons w ws ih => rw [List.flatMap_cons, ih]; rfl

/-- D13: the low byte, and the high byte if it is not 0. -/
theorem putspBytes_eq (w : Word) :
    putspBytes w = w.extractLsb' 0 8 :: if w.extractLsb' 8 8 = 0#8 then [] else [w.extractLsb' 8 8] := by
  unfold putspBytes
  split <;> rfl

/-- Settles O35: a string in plain storage is one whose reads move nothing. -/
theorem putsWritesTheString : Obligations.PutsWritesTheString := by
  have hputs : StringService .puts putsBytes := .inl ⟨rfl, rfl⟩
  refine ⟨fun s ws hholds h0 htakes => ?_, fun s m ws hreads h0 htakes => ?_⟩
  · rw [← flatMap_putsBytes]
    exact string_completes hputs hholds.reads h0 (by rwa [flatMap_putsBytes, List.length_map])
  · rw [← flatMap_putsBytes]
    exact string_completes hputs hreads h0 (by rwa [flatMap_putsBytes, List.length_map])

/-- Settles O36, as `putsWritesTheString`, with the bytes of `putspBytes_eq`. -/
theorem putspWritesThePackedString : Obligations.PutspWritesThePackedString := by
  have hputsp : StringService .putsp putspBytes := .inr ⟨rfl, rfl⟩
  rw [Obligations.PutspWritesThePackedString, ← funext putspBytes_eq]
  exact ⟨fun s ws hholds h0 htakes => string_completes hputsp hholds.reads h0 htakes,
    fun s m ws hreads h0 htakes => string_completes hputsp hreads h0 htakes⟩

/-- A flow that neither is held nor goes on for ever gives a next state. -/
theorem exists_next_of_ends {r : Flow Unit} {w : Option InputWait} (hends : ∀ b, r ≠ .endless b) :
    ∃ t, r.outcome w = .next t := by
  cases r with
  | ok _ t | ended t | held t => exact ⟨_, rfl⟩
  | endless b => exact absurd rfl (hends b)

/-- Settles O37: the string ends within its bound, and `stringLoop_frame` says what it can have moved. -/
theorem stringsEndOnFiniteInput : Obligations.StringsEndOnFiniteInput := by
  intro i s hi hfin
  obtain ⟨emit, hservice⟩ : ∃ emit, StringService i emit := by
    rcases hi with rfl | rfl
    · exact ⟨_, .inl ⟨rfl, rfl⟩⟩
    · exact ⟨_, .inr ⟨rfl, rfl⟩⟩
  obtain ⟨t, ht⟩ := exists_next_of_ends (w := none)
    (stringLoop_ends (emit := emit) (a := s.pc - 1#16) (p := getReg 0 s) (s := trapEntry s) hfin)
  have hexec : exec i s = .next t := (exec_string hservice s).trans ht
  have hframe : StringFrame (s.pc - 1#16) (trapEntry s) t := by
    rcases outcome_eq_next.1 ht with hdone | hended | ⟨m, hheld, -⟩
    · exact stringLoop_frame (.inl hdone)
    · exact stringLoop_frame (.inr hended)
    · exact absurd hheld (stringLoop_not_held _ _ _ _ _ _)
  obtain ⟨hlink, hregs, hcond, hpc, hwords⟩ := frame_of_trapEntry hframe.io
  exact ⟨t, hexec, hframe.written, hregs, hcond, hwords, hframe.status.imp (fun hstatus => ⟨hstatus, hpc, hlink⟩) id⟩

/-- Settles O40: the failing read of GETC and of IN after its prompt, and the failing poll of a string. -/
theorem noInputIsIoError : Obligations.NoInputIsIoError := by
  refine ⟨fun s hfails => ⟨?_, fun htakes => ?_⟩, fun i emit s m e ws hservice hreads h0 htakes hpoll => ?_⟩
  · obtain ⟨p, hserve⟩ := serviceGetc_of_fails (s := trapEntry s) hfails
    exact ⟨_, hserve, rfl, (regs_of_trapEntry rfl).2, rfl, fun _ _ => rfl, rfl⟩
  · obtain ⟨p, hbody⟩ := inBody_of_fails (s := prompted s) hfails
    exact ⟨_, (exec_inp_of_takes htakes).trans hbody, rfl, (regs_of_trapEntry rfl).2, rfl, fun _ _ => rfl, rfl⟩
  · obtain ⟨t, hexec, hio, hstatus, hout⟩ := exec_string_poll_fails hservice hreads h0 htakes hpoll
    have hwritten : IoOnly (trapEntry m) (writtenUpTo emit s m ws) := ⟨rfl, rfl, rfl, rfl, rfl, rfl⟩
    obtain ⟨-, hregs, hcond, -, hwords⟩ :=
      frame_of_trapEntry ((hreads.frame.1.afterTrapEntry.trans hwritten).trans hio)
    exact ⟨t, hexec, hstatus, hregs, hcond, hwords, hout⟩

/-- HALT whose notice fails ends in the `IoError`, and not in `Halted` (D22). -/
theorem exec_halt_of_notice_fails {s : State} {k : Nat} (hfail : s.output.failIn = some k)
    (hk : k < s.cfg.haltNotice.length) :
    ∃ f, exec .halt s = .next (raise (.ioError (s.pc - 1#16) .output)
      (setOutput ⟨s.output.written ++ s.cfg.haltNotice.take k, f⟩ (trapEntry s))) := by
  obtain ⟨f, hnotice⟩ := outBytes_fails (a := s.pc - 1#16) (s := trapEntry s) hfail hk
  refine ⟨f, ?_⟩
  rw [exec, execHalt, serviceHalt, haltBody, instrAddr_eq, trapEntry_pc, trapEntry_cfg, hnotice, ended_andThen,
    ended_outcome]
  rfl

/-- Settles O41: the four places a byte can fail, each with the bytes before it written. -/
theorem outputFailureIsIoError : Obligations.OutputFailureIsIoError := by
  intro s k hfail
  refine ⟨fun hk => ?_, fun hk c q hsup => ?_, fun hk => ?_,
    fun i emit m ws w hservice hreads h0 hbefore hbyte => ?_⟩
  · obtain ⟨f, hexec⟩ := exec_inp_of_prompt_fails hfail hk
    exact ⟨_, hexec, rfl, rfl, rfl, (regs_of_trapEntry rfl).2, rfl, fun _ _ => rfl⟩
  · have htakes : Takes s.output s.cfg.inPrompt.length := fun j hj => by
      rw [hfail] at hj
      cases hj
      exact hk.ge
    have hecho : (prompted s).output.failIn = some 0 := by simp [prompted, afterBytes, hfail, hk]
    exact ⟨_, (exec_inp_of_takes htakes).trans (inBody_of_echo_fails (s := prompted s) hsup hecho), rfl, rfl, rfl,
      (regs_of_trapEntry rfl).2, rfl, fun _ _ => rfl⟩
  · obtain ⟨f, hexec⟩ := exec_halt_of_notice_fails hfail hk
    exact ⟨_, hexec, rfl, rfl, (regs_of_trapEntry rfl).2, rfl, fun _ _ => rfl⟩
  · obtain ⟨f, hexec⟩ := exec_string_byte_fails hservice hreads h0 hfail hbefore hbyte
    obtain ⟨-, hregs, hcond, -, hwords⟩ := frame_of_trapEntry hreads.frame.1.afterTrapEntry
    exact ⟨_, hexec, rfl, rfl, rfl, rfl, hregs, hcond, hwords⟩

end Sys2Proof.Machine

/-! PROOFS. What an instruction can come to, said once for every class of instructions, and the rules of the whole
machine that follow (10_state.md R20 to R38; 20_memory.md R54; 60_exceptions.md R185 to R194). -/

namespace Sys2Proof.Machine

/-! GETC and IN, from trap entry or from their wait. -/

/-- From `s`, GETC or IN has written R0 and the flags as its last act, has failed before it, or waits. -/
inductive CharEnd (s : State) : State → Prop where
  | completes (v : Word) {m : State} (hio : IoOnly (setWait none s) m) (hstatus : m.status = s.status) :
      CharEnd s (writeDest 0 v m)
  | fails {t : State} (dir : IoDir) (hio : IoOnly (setWait none s) t)
      (hstatus : t.status = .ioError (instrAddr s) dir) :
      CharEnd s t
  | waits (w : InputWait) {m : State} (hio : IoOnly (setWait none s) m) (hstatus : m.status = s.status) :
      CharEnd s (setWait (some w) m)

section CharEnds
variable {s m t : State}

theorem serviceGetc_charEnd (h : serviceGetc s = .next t) : CharEnd s t := by
  rcases serviceGetc_cases h with ⟨c, p, rfl⟩ | ⟨p, rfl⟩ | rfl
  · exact .completes (c.setWidth 16) ⟨rfl, rfl, rfl, rfl, rfl, rfl⟩ rfl
  · exact .fails .input ⟨rfl, rfl, rfl, rfl, rfl, rfl⟩ rfl
  · rw [← setWait_setWait s (some .getc) none]
    exact .waits .getc (IoOnly.refl _) rfl

/-- IN after its prompt, of which only the output has moved. -/
theorem inBody_charEnd (o : OutputPort) (h : (inBody (setOutput o (setWait none s))).outcome (some .inp) = .next t) :
    CharEnd s t := by
  rcases inBody_cases h with ⟨c, p, f, rfl⟩ | ⟨p, rfl⟩ | ⟨p, rfl⟩ | rfl
  · exact .completes (c.setWidth 16) ⟨rfl, rfl, rfl, rfl, rfl, rfl⟩ rfl
  · exact .fails .input ⟨rfl, rfl, rfl, rfl, rfl, rfl⟩ rfl
  · exact .fails .output ⟨rfl, rfl, rfl, rfl, rfl, rfl⟩ rfl
  · exact .waits .inp ⟨rfl, rfl, rfl, rfl, rfl, rfl⟩ rfl

theorem serviceIn_charEnd (h : serviceIn s = .next t) : CharEnd s t := by
  rcases serviceIn_cases h with ⟨o, -, rfl⟩ | ⟨f, hbody⟩
  · exact .fails .output ⟨rfl, rfl, rfl, rfl, rfl, rfl⟩ rfl
  · exact inBody_charEnd _ hbody

theorem resumeWait_charEnd {w : InputWait} (h : resumeWait w s = .next t) : CharEnd s t := by
  cases w with
  | getc => exact serviceGetc_charEnd h
  | inp => exact inBody_charEnd s.output h

theorem CharEnd.mem (h : CharEnd s t) : t.mem = s.mem := by
  cases h with
  | completes v hio _ | fails dir hio _ | waits w hio _ => exact hio.mem

theorem CharEnd.pc (h : CharEnd s t) : t.pc = s.pc := by
  cases h with
  | completes v hio _ | fails dir hio _ | waits w hio _ => exact hio.pc

/-- Only a service that goes on waits (R34). -/
theorem CharEnd.wait (h : CharEnd s t) (hwait : t.wait ≠ none) : t.status = s.status := by
  cases h with
  | completes v hio _ | fails dir hio _ => exact absurd hio.wait hwait
  | waits w _ hstatus => exact hstatus

theorem CharEnd.keepsRegs (h : CharEnd s t) : KeepsRegs [0] s t := by
  intro r hr
  cases h with
  | completes v hio _ => rw [writeDest_keepsRegs 0 v _ r hr, hio.getReg, getReg_setWait]
  | fails dir hio _ | waits w hio _ => exact hio.getReg r

/-- A service that does not go on has written nothing. -/
theorem CharEnd.ended (h : CharEnd s t) (hover : t.status ≠ s.status) : KeepsRegs [] s t ∧ t.cond = s.cond := by
  cases h with
  | completes v _ hstatus => exact absurd hstatus hover
  | fails dir hio _ => exact ⟨fun r _ => hio.getReg r, hio.cond⟩
  | waits w _ hstatus => exact absurd hstatus hover

end CharEnds

/-! The other services. -/

section Services
variable {s t : State}

theorem serviceOut_ioOnly (h : serviceOut s = .next t) : IoOnly s t := by
  rcases serviceOut_cases h with ⟨f, rfl⟩ | rfl <;> exact ⟨rfl, rfl, rfl, rfl, rfl, rfl⟩

theorem serviceHalt_ioOnly (h : serviceHalt s = .next t) : IoOnly s t := by
  rcases serviceHalt_cases h with ⟨f, rfl⟩ | ⟨o, -, rfl⟩ <;> exact ⟨rfl, rfl, rfl, rfl, rfl, rfl⟩

theorem unknownVector_ioOnly {v : BitVec 8} (h : unknownVector v s = .next t) : IoOnly s t := by
  cases h
  exact ⟨rfl, rfl, rfl, rfl, rfl, rfl⟩

end Services

/-! Every instruction. -/

/-- ST, STI and STR (R54). -/
def IsStore (i : Instr) : Prop :=
  (∃ sr off, i = .st sr off) ∨ (∃ sr off, i = .sti sr off) ∨ ∃ sr b off, i = .str sr b off

/-- BR and JMP, which link nothing (R105, R140). -/
def IsPlainJump (i : Instr) : Prop := (∃ n z p off, i = .br n z p off) ∨ ∃ b, i = .jmp b

/-- JSR and JSRR (R141, R142). -/
def IsCall (i : Instr) : Prop := (∃ off, i = .jsr off) ∨ ∃ b, i = .jsrr b

/-- All that the instruction `i` can come to from `s`, but for what the collaborators and the latch show. -/
inductive ExecEnd (s : State) : Instr → State → Prop where
  | dest {i : Instr} {dr : Reg} {t : State} (hi : destField i = some dr) (h : EndsByWriteDest dr s t) : ExecEnd s i t
  | char {i : Instr} {t : State} (hi : 0 ∈ destRegs i ∧ 7 ∈ destRegs i) (h : CharEnd (trapEntry s) t) : ExecEnd s i t
  | service {i : Instr} {t : State} (hi : 7 ∈ destRegs i) (h : IoOnly (trapEntry s) t) : ExecEnd s i t
  | ended {i : Instr} {t : State} (h : IoOnly s t) (hover : t.status ≠ .running) : ExecEnd s i t
  | jump {i : Instr} (hi : IsPlainJump i) (target : Word) : ExecEnd s i (setPc target s)
  | call {i : Instr} (hi : IsCall i) (target : Word) : ExecEnd s i (setPc target (linkR7 s))
  | store {i : Instr} {m : State} (hi : IsStore i) (hio : IoOnly s m) (hstatus : m.status = s.status) (addr v : Word) :
      ExecEnd s i (memWrite addr v m)

theorem exec_end {i : Instr} {s t : State} (h : exec i s = .next t) : ExecEnd s i t := by
  cases hdest : destField i with
  | some dr => exact .dest hdest (exec_endsByWriteDest hdest h)
  | none =>
    match i, hdest, h with
    | .br n z p off, _, h =>
      cases (exec_br n z p off s).symm.trans h
      exact .jump (.inl ⟨n, z, p, off, rfl⟩) _
    | .jmp b, _, rfl => exact .jump (.inr ⟨b, rfl⟩) _
    | .jsr off, _, rfl => exact .call (.inl ⟨off, rfl⟩) _
    | .jsrr b, _, rfl => exact .call (.inr ⟨b, rfl⟩) _
    | .st sr off, _, rfl => exact .store (.inl ⟨sr, off, rfl⟩) (.refl s) rfl _ _
    | .str sr b off, _, rfl => exact .store (.inr (.inr ⟨sr, b, off, rfl⟩)) (.refl s) rfl _ _
    | .sti sr off, _, h =>
      rcases execSti_cases h with ⟨ptr, m, hread, rfl⟩ | hread
      · obtain ⟨hio, hstatus, -⟩ := memRead_ok_ioOnly hread
        exact .store (.inr (.inl ⟨sr, off, rfl⟩)) hio hstatus _ _
      · obtain ⟨hio, hstatus, -⟩ := memRead_ended_ioOnly hread
        exact .ended hio (by rw [hstatus]; nofun)
    | .res _, _, rfl | .rti _, _, rfl => exact .ended ⟨rfl, rfl, rfl, rfl, rfl, rfl⟩ nofun
    | .getc, _, h => exact .char (by decide) (serviceGetc_charEnd h)
    | .inp, _, h => exact .char (by decide) (serviceIn_charEnd h)
    | .out, _, h => exact .service (by decide) (serviceOut_ioOnly h)
    | .puts, _, h | .putsp, _, h => exact .service (by decide) (writeString_frame h).io
    | .halt, _, h => exact .service (by decide) (serviceHalt_ioOnly h)
    | .trap v, _, h =>
      have hregs : (0 : Reg) ∈ destRegs (.trap v) ∧ (7 : Reg) ∈ destRegs (.trap v) := by simp [destRegs]
      change dispatchVector v (trapEntry s) = .next t at h
      unfold dispatchVector at h
      split at h
      · exact .char hregs (serviceGetc_charEnd h)
      · exact .service hregs.2 (serviceOut_ioOnly h)
      · exact .service hregs.2 (writeString_frame h).io
      · exact .char hregs (serviceIn_charEnd h)
      · exact .service hregs.2 (writeString_frame h).io
      · exact .service hregs.2 (serviceHalt_ioOnly h)
      · exact .service hregs.2 (unknownVector_ioOnly h)

section Rules
variable {i : Instr} {s t : State}

theorem EndsByWriteDest.mem {dr : Reg} (h : EndsByWriteDest dr s t) : t.mem = s.mem := by
  rcases h with ⟨v, m, hio, -, rfl⟩ | ⟨hio, -⟩ <;> exact hio.mem

theorem EndsByWriteDest.pc {dr : Reg} (h : EndsByWriteDest dr s t) : t.pc = s.pc := by
  rcases h with ⟨v, m, hio, -, rfl⟩ | ⟨hio, -⟩ <;> exact hio.pc

theorem EndsByWriteDest.wait {dr : Reg} (h : EndsByWriteDest dr s t) : t.wait = s.wait := by
  rcases h with ⟨v, m, hio, -, rfl⟩ | ⟨hio, -⟩ <;> exact hio.wait

theorem EndsByWriteDest.keepsRegs {dr : Reg} (h : EndsByWriteDest dr s t) : KeepsRegs [dr] s t := by
  intro r hr
  rcases h with ⟨v, m, hio, -, rfl⟩ | ⟨hio, -⟩
  · rw [writeDest_keepsRegs dr v m r hr, hio.getReg]
  · exact hio.getReg r

/-- A load that does not go on has written nothing. -/
theorem EndsByWriteDest.ended {dr : Reg} (h : EndsByWriteDest dr s t) (hover : t.status ≠ s.status) : IoOnly s t := by
  rcases h with ⟨v, m, -, hstatus, rfl⟩ | ⟨hio, -⟩
  · exact absurd hstatus hover
  · exact hio

/-- Settles O55: of all that an instruction can come to, only `ExecEnd.store` moves memory. -/
theorem onlyStoresWriteMemory : Obligations.OnlyStoresWriteMemory := by
  intro i s t hst hsti hstr hexec
  cases exec_end hexec with
  | dest _ h => exact h.mem
  | char _ h => exact h.mem
  | service _ h | ended h _ => exact h.mem
  | jump | call => rfl
  | store hi =>
    rcases hi with ⟨sr, off, rfl⟩ | ⟨sr, off, rfl⟩ | ⟨sr, b, off, rfl⟩
    · exact absurd rfl (hst sr off)
    · exact absurd rfl (hsti sr off)
    · exact absurd rfl (hstr sr b off)

/-- Settles O58: of all that an instruction can come to, only `ExecEnd.jump` and `ExecEnd.call` move `pc`. -/
theorem onlyJumpsMovePc : Obligations.OnlyJumpsMovePc := by
  intro i s t hbr hjmp hjsr hjsrr hexec _
  cases exec_end hexec with
  | dest _ h => exact h.pc
  | char _ h => exact h.pc
  | service _ h | ended h _ => exact h.pc
  | store _ hio _ addr v =>
    obtain ⟨-, -, hpc, -⟩ := memWrite_frame addr v _
    exact hpc.trans hio.pc
  | jump hi =>
    rcases hi with ⟨n, z, p, off, rfl⟩ | ⟨b, rfl⟩
    · exact absurd rfl (hbr n z p off)
    · exact absurd rfl (hjmp b)
  | call hi =>
    rcases hi with ⟨off, rfl⟩ | ⟨b, rfl⟩
    · exact absurd rfl (hjsr off)
    · exact absurd rfl (hjsrr b)

theorem KeepsRegs.mono {D E : List Reg} (h : KeepsRegs D s t) (hsub : D ⊆ E) : KeepsRegs E s t :=
  fun r hr => h r fun hmem => hr (hsub hmem)

/-- What a service keeps from trap entry on, and the link. -/
theorem KeepsRegs.of_trapEntry {D : List Reg} (h : KeepsRegs D (trapEntry s) t) : KeepsRegs (7 :: D) s t := by
  intro r hr
  obtain ⟨h7, hD⟩ := not_or.1 (List.mem_cons.not.1 hr)
  rw [h r hD, trapEntry, (linkR7_frame s).1 r (by simpa using h7)]

theorem destRegs_of_destField {dr : Reg} (h : destField i = some dr) : destRegs i = [dr] := by
  match i, h with
  | .addReg _ _ _, rfl | .addImm _ _ _, rfl | .andReg _ _ _, rfl | .andImm _ _ _, rfl | .not _ _, rfl | .lea _ _, rfl
  | .ld _ _, rfl | .ldi _ _, rfl | .ldr _ _ _, rfl => rfl

theorem exec_keepsRegs (hexec : exec i s = .next t) : KeepsRegs (destRegs i) s t := by
  cases exec_end hexec with
  | dest hi h => exact destRegs_of_destField hi ▸ h.keepsRegs
  | char hi h => exact h.keepsRegs.of_trapEntry.mono (by simp [hi])
  | service hi h => exact (KeepsRegs.of_trapEntry (D := []) fun r _ => h.getReg r).mono (by simp [hi])
  | ended h _ => exact fun r _ => h.getReg r
  | jump => exact fun _ _ => rfl
  | call hi =>
    have hregs : destRegs i = [7] := by rcases hi with ⟨off, rfl⟩ | ⟨b, rfl⟩ <;> rfl
    exact hregs ▸ (linkR7_frame s).1
  | store _ hio _ addr v =>
    obtain ⟨hregs, -⟩ := memWrite_frame addr v _
    exact fun r _ => (hregs r List.not_mem_nil).trans (hio.getReg r)

/-- Settles O56: `exec_keepsRegs` holds whether the run goes on or not. -/
theorem onlyDestinationsAreWritten : Obligations.OnlyDestinationsAreWritten := fun _ _ _ hexec =>
  ⟨fun _ => exec_keepsRegs hexec, (exec_keepsRegs hexec).mono (List.subset_cons_self _ _)⟩

end Rules

/-! What the collaborators and the latch show. -/

/-- The parameters stay, bytes are only added to the output, and the latch takes nothing but a character. -/
structure IoGrows (s t : State) : Prop where
  cfg : t.cfg = s.cfg
  written : s.output.written <+: t.output.written
  latch : t.kbdrLatch = s.kbdrLatch ∨ ∃ c : Byte, t.kbdrLatch = c.setWidth 16

section Grows
variable {i : Instr} {s m t : State}

theorem IoGrows.refl (s : State) : IoGrows s s := ⟨rfl, List.prefix_rfl, .inl rfl⟩

theorem IoGrows.trans {u : State} (h : IoGrows s t) (k : IoGrows t u) : IoGrows s u :=
  ⟨k.cfg.trans h.cfg, h.written.trans k.written, k.latch.elim (fun e => e ▸ h.latch) .inr⟩

theorem StringFrame.grows {a : Word} (h : StringFrame a s t) : IoGrows s t := ⟨h.io.cfg, h.written, h.latch⟩

theorem memRead_ok_grows {a addr w : Word} (h : memRead a addr s = .ok w m) : IoGrows s m := by
  rcases memRead_cases a addr s with ⟨v, p, l, hread, hl⟩ | ⟨p, hread⟩ <;> rw [hread] at h <;> cases h
  exact ⟨rfl, List.prefix_rfl, hl⟩

theorem memRead_ended_grows {a addr : Word} (h : memRead a addr s = .ended m) : IoGrows s m := by
  obtain ⟨hio, -, hout, hlatch⟩ := memRead_ended_ioOnly h
  exact ⟨hio.cfg, hout ▸ List.prefix_rfl, .inl hlatch⟩

theorem loadDest_grows {dr : Reg} {addr : Word} (h : (loadDest dr addr s).outcome none = .next t) : IoGrows s t := by
  rcases loadDest_cases h with ⟨v, m, hread, rfl⟩ | hread
  · exact (memRead_ok_grows hread).trans ⟨rfl, List.prefix_rfl, .inl rfl⟩
  · exact memRead_ended_grows hread

theorem execLdi_grows {dr : Reg} {off : BitVec 9} (h : execLdi dr off s = .next t) : IoGrows s t := by
  rcases execLdi_cases h with ⟨ptr, m, hptr, ⟨v, n, hread, rfl⟩ | hread⟩ | hptr
  · exact ((memRead_ok_grows hptr).trans (memRead_ok_grows hread)).trans ⟨rfl, List.prefix_rfl, .inl rfl⟩
  · exact (memRead_ok_grows hptr).trans (memRead_ended_grows hread)
  · exact memRead_ended_grows hptr

theorem memWrite_grows (addr v : Word) (s : State) : IoGrows s (memWrite addr v s) := by
  obtain ⟨m, hm⟩ := memWrite_eq addr v s
  rw [hm]
  exact ⟨rfl, List.prefix_rfl, .inl rfl⟩

theorem execSti_grows {sr : Reg} {off : BitVec 9} (h : execSti sr off s = .next t) : IoGrows s t := by
  rcases execSti_cases h with ⟨ptr, m, hread, rfl⟩ | hread
  · exact (memRead_ok_grows hread).trans (memWrite_grows _ _ m)
  · exact memRead_ended_grows hread

theorem serviceGetc_grows (h : serviceGetc s = .next t) : IoGrows s t := by
  rcases serviceGetc_cases h with ⟨c, p, rfl⟩ | ⟨p, rfl⟩ | rfl <;> exact ⟨rfl, List.prefix_rfl, .inl rfl⟩

theorem inBody_grows (h : (inBody s).outcome (some .inp) = .next t) : IoGrows s t := by
  rcases inBody_cases h with ⟨c, p, f, rfl⟩ | ⟨p, rfl⟩ | ⟨p, rfl⟩ | rfl
  · exact ⟨rfl, List.prefix_append _ _, .inl rfl⟩
  · exact ⟨rfl, List.prefix_rfl, .inl rfl⟩
  · exact ⟨rfl, List.prefix_rfl, .inl rfl⟩
  · exact ⟨rfl, List.prefix_rfl, .inl rfl⟩

theorem serviceIn_grows (h : serviceIn s = .next t) : IoGrows s t := by
  rcases serviceIn_cases h with ⟨o, hprefix, rfl⟩ | ⟨f, hbody⟩
  · exact ⟨rfl, hprefix, .inl rfl⟩
  · have hprompt : IoGrows s (setOutput ⟨s.output.written ++ s.cfg.inPrompt, f⟩ (setWait none s)) :=
      ⟨rfl, List.prefix_append _ _, .inl rfl⟩
    exact hprompt.trans (inBody_grows hbody)

theorem serviceOut_grows (h : serviceOut s = .next t) : IoGrows s t := by
  rcases serviceOut_cases h with ⟨f, rfl⟩ | rfl
  · exact ⟨rfl, List.prefix_append _ _, .inl rfl⟩
  · exact ⟨rfl, List.prefix_rfl, .inl rfl⟩

theorem serviceHalt_grows (h : serviceHalt s = .next t) : IoGrows s t := by
  rcases serviceHalt_cases h with ⟨f, rfl⟩ | ⟨o, hprefix, rfl⟩
  · exact ⟨rfl, List.prefix_append _ _, .inl rfl⟩
  · exact ⟨rfl, hprefix, .inl rfl⟩

/-- The dispatcher runs the service of the vector, or ends the run. -/
theorem dispatchVector_grows {v : BitVec 8} (h : dispatchVector v s = .next t) : IoGrows s t := by
  unfold dispatchVector at h
  split at h
  · exact serviceGetc_grows h
  · exact serviceOut_grows h
  · exact (writeString_frame h).grows
  · exact serviceIn_grows h
  · exact (writeString_frame h).grows
  · exact serviceHalt_grows h
  · cases h
    exact ⟨rfl, List.prefix_rfl, .inl rfl⟩

theorem exec_grows (h : exec i s = .next t) : IoGrows s t := by
  have hentry : IoGrows s (trapEntry s) := ⟨rfl, List.prefix_rfl, .inl rfl⟩
  match i, h with
  | .br n z p off, h =>
    cases (exec_br n z p off s).symm.trans h
    exact ⟨rfl, List.prefix_rfl, .inl rfl⟩
  | .jmp _, rfl | .jsr _, rfl | .jsrr _, rfl | .addReg _ _ _, rfl | .addImm _ _ _, rfl | .andReg _ _ _, rfl
  | .andImm _ _ _, rfl | .not _ _, rfl | .lea _ _, rfl | .res _, rfl | .rti _, rfl =>
    exact ⟨rfl, List.prefix_rfl, .inl rfl⟩
  | .st _ _, rfl | .str _ _ _, rfl => exact memWrite_grows _ _ s
  | .ld _ _, h | .ldr _ _ _, h => exact loadDest_grows h
  | .ldi _ _, h => exact execLdi_grows h
  | .sti _ _, h => exact execSti_grows h
  | .trap _, h => exact hentry.trans (dispatchVector_grows h)
  | .getc, h => exact hentry.trans (serviceGetc_grows h)
  | .out, h => exact hentry.trans (serviceOut_grows h)
  | .puts, h | .putsp, h => exact hentry.trans (writeString_frame h).grows
  | .inp, h => exact hentry.trans (serviceIn_grows h)
  | .halt, h => exact hentry.trans (serviceHalt_grows h)

theorem resumeWait_grows {w : InputWait} (h : resumeWait w s = .next t) : IoGrows s t := by
  cases w with
  | getc => exact serviceGetc_grows h
  | inp =>
    have hwake : IoGrows s (setWait none s) := ⟨rfl, List.prefix_rfl, .inl rfl⟩
    exact hwake.trans (inBody_grows h)

theorem step_grows (h : step s = .next t) : IoGrows s t := by
  obtain ⟨-, ⟨w, -, hresume⟩ | ⟨-, hfetch⟩ | ⟨ir, m, -, hfetch, hexec⟩⟩ := step_cases h
  · exact resumeWait_grows hresume
  · exact memRead_ended_grows hfetch
  · have hmove : IoGrows m (setPc (s.pc + 1#16) m) := ⟨rfl, List.prefix_rfl, .inl rfl⟩
    exact ((memRead_ok_grows hfetch).trans hmove).trans (exec_grows hexec)

end Grows

/-- Settles O60, by induction on the run. -/
theorem outputOnlyGrowsAlongARun : Obligations.OutputOnlyGrowsAlongARun := by
  intro s t hreach
  have hgrows : IoGrows s t := by
    induction hreach with
    | refl => exact .refl s
    | tail _ hstep ih => exact ih.trans (step_grows hstep)
  exact ⟨hgrows.written, hgrows.cfg⟩

/-! The invariant. -/

section Invariant
variable {i : Instr} {s m t : State}

/-- An instruction of a machine that runs and does not wait keeps the invariant. -/
theorem exec_inv (hinv : s.Inv) (hrunning : s.status = .running) (hwait : s.wait = none) (hexec : exec i s = .next t) :
    t.Inv := by
  obtain ⟨hcfg, -, hlatch⟩ := exec_grows hexec
  have hnoWait : t.wait = s.wait → t.wait ≠ none → t.status = .running := fun h hne => absurd (h.trans hwait) hne
  cases exec_end hexec with
  | dest _ h => exact hinv.of_frame h.mem hcfg hlatch (hnoWait h.wait)
  | char _ h => exact hinv.of_frame h.mem hcfg hlatch fun hne => (h.wait hne).trans hrunning
  | service _ h | ended h _ => exact hinv.of_frame h.mem hcfg hlatch (hnoWait h.wait)
  | jump | call => exact hinv.of_frame rfl hcfg hlatch (hnoWait rfl)
  | @store m _ hio _ addr v =>
    have hsame : (memWrite addr v m).kbdrLatch = m.kbdrLatch := by
      obtain ⟨-, -, -, ⟨hkeep, -⟩, -⟩ := memWrite_frame addr v m
      exact hkeep
    have hm : m.Inv := hinv.of_frame hio.mem hio.cfg (hsame ▸ hlatch) fun hne => absurd (hio.wait.trans hwait) hne
    exact hm.memWrite addr v

/-- Settles O54: a resumed wait, a fetch that fails, and an instruction after its fetch each keep the invariant. -/
theorem stepKeepsInv : Obligations.StepKeepsInv := by
  intro s t hinv hstep
  obtain ⟨hcfg, -, hlatch⟩ := step_grows hstep
  obtain ⟨hrunning, ⟨w, -, hresume⟩ | ⟨hwait, hfetch⟩ | ⟨ir, m, hwait, hfetch, hexec⟩⟩ := step_cases hstep
  · have h := resumeWait_charEnd hresume
    exact hinv.of_frame h.mem hcfg hlatch fun hne => (h.wait hne).trans hrunning
  · obtain ⟨hio, -⟩ := memRead_ended_ioOnly hfetch
    exact hinv.of_frame hio.mem hcfg hlatch fun hne => absurd (hio.wait.trans hwait) hne
  · obtain ⟨hio, hstatus, -⟩ := memRead_ok_ioOnly hfetch
    obtain ⟨hcfg', -, hlatch'⟩ := memRead_ok_grows hfetch
    have hmwait : m.wait = none := hio.wait.trans hwait
    have hm : (setPc (s.pc + 1#16) m).Inv :=
      hinv.of_frame hio.mem hcfg' hlatch' fun hne => absurd hmwait hne
    exact exec_inv hm (hstatus.trans hrunning) hmwait hexec

end Invariant

/-! The flags. -/

section Flags
variable {s t : State}

/-- A load sets the flags from what it wrote if it goes on, and leaves them if it does not. -/
theorem EndsByWriteDest.flags {dr : Reg} (h : EndsByWriteDest dr s t) (hrunning : s.status = .running) :
    (t.status = .running → FlagsMatch (getReg dr t) t.cond) ∧ (t.status ≠ .running → t.cond = s.cond) := by
  refine ⟨fun hgoes => ?_, fun hover => (h.ended (hrunning ▸ hover)).cond⟩
  rcases h with ⟨v, m, -, -, rfl⟩ | ⟨-, hstatus⟩
  · exact writeDest_flagsMatch dr v m
  · rw [hgoes] at hstatus
    cases hstatus

/-- GETC and IN set the flags from R0 when they complete, and leave them when they end the run or wait. -/
theorem CharEnd.flags (h : CharEnd s t) (hrunning : s.status = .running) :
    (t.status = .running → t.wait = none → FlagsMatch (getReg 0 t) t.cond) ∧
      (t.status ≠ .running ∨ t.wait ≠ none → t.cond = s.cond) := by
  cases h with
  | completes v hio hstatus =>
    refine ⟨fun _ _ => writeDest_flagsMatch 0 v _, fun h => ?_⟩
    rcases h with hover | hwait
    · exact absurd (hstatus.trans hrunning) hover
    · exact absurd hio.wait hwait
  | fails dir hio hstatus =>
    refine ⟨fun hgoes => ?_, fun _ => hio.cond⟩
    rw [hgoes] at hstatus
    cases hstatus
  | waits w hio _ => exact ⟨fun _ hnone => (nomatch hnone), fun _ => hio.cond⟩

theorem memWrite_cond (addr v : Word) (s : State) : (memWrite addr v s).cond = s.cond := by
  obtain ⟨m, hm⟩ := memWrite_eq addr v s
  rw [hm, setMem_cond]

/-- An instruction with no destination field, not GETC or IN, leaves the flags as they were. -/
theorem exec_cond {i : Instr} (hwf : i.wellFormed = true) (hdest : destField i = none) (hgetc : i ≠ .getc)
    (hinp : i ≠ .inp) (h : exec i s = .next t) : t.cond = s.cond := by
  match i, hdest, h with
  | .br n z p off, _, h =>
    cases (exec_br n z p off s).symm.trans h
    rfl
  | .jmp _, _, rfl | .jsr _, _, rfl | .jsrr _, _, rfl | .res _, _, rfl | .rti _, _, rfl => rfl
  | .st _ _, _, rfl | .str _ _ _, _, rfl => exact memWrite_cond _ _ s
  | .sti _ _, _, h =>
    rcases execSti_cases h with ⟨ptr, m, hread, rfl⟩ | hread
    · exact (memWrite_cond _ _ m).trans (memRead_ok_ioOnly hread).1.cond
    · exact (memRead_ended_ioOnly hread).1.cond
  | .trap v, _, h =>
    cases (exec_trap_of_wellFormed hwf).symm.trans h
    rfl
  | .out, _, h => exact (serviceOut_ioOnly h).cond
  | .puts, _, h | .putsp, _, h => exact (writeString_frame h).io.cond
  | .halt, _, h => exact (serviceHalt_ioOnly h).cond
  | .getc, _, _ => exact absurd rfl hgetc
  | .inp, _, _ => exact absurd rfl hinp

/-- Settles O57: the operate instructions and LEA always write their destination, the loads, GETC and IN when they
complete, and no other instruction writes one. -/
theorem flagsFollowTheDestination : Obligations.FlagsFollowTheDestination := by
  intro i s t hwf hrunning hexec
  match i, hexec with
  | .addReg dr _ _, rfl | .addImm dr _ _, rfl | .andReg dr _ _, rfl | .andImm dr _ _, rfl | .not dr _, rfl
  | .lea dr _, rfl => exact writeDest_flagsMatch dr _ s
  | .ld dr _, h | .ldi dr _, h | .ldr dr _ _, h => exact (exec_endsByWriteDest rfl h).flags hrunning
  | .getc, h => exact (serviceGetc_charEnd h).flags hrunning
  | .inp, h => exact (serviceIn_charEnd h).flags hrunning
  | .br _ _ _ _, h | .st _ _, h | .sti _ _, h | .str _ _ _, h | .jmp _, h | .jsr _, h | .jsrr _, h | .trap _, h
  | .out, h | .puts, h | .putsp, h | .halt, h | .res _, h | .rti _, h => exact exec_cond hwf rfl nofun nofun h

end Flags

/-! Terminal conditions. -/

/-- The instructions that read the input collaborator (R189). -/
def ReadsInput (i : Instr) : Prop :=
  i = .getc ∨ i = .inp ∨ i = .puts ∨ i = .putsp ∨ (∃ r o, i = .ld r o) ∨ (∃ r o, i = .ldi r o) ∨
    (∃ r b o, i = .ldr r b o) ∨ ∃ r o, i = .sti r o

/-- The instructions that write the output collaborator (R189). -/
def WritesOutput (i : Instr) : Prop := i = .out ∨ i = .puts ∨ i = .inp ∨ i = .putsp ∨ i = .halt

/-- The status a running machine can have after the instruction `i` at `a` (R185 to R189). -/
inductive Raises (a : Word) (i : Instr) : RunStatus → Prop where
  | goesOn : Raises a i .running
  | halted (hi : i = .halt) : Raises a i (.halted a)
  | invalidOpcode (hi : (∃ u, i = .res u) ∨ ∃ u, i = .rti u) : Raises a i (.invalidOpcode a (encode i))
  | invalidTrap (v : BitVec 8) (hi : i = .trap v) : Raises a i (.invalidTrap a v)
  | inputError (hi : ReadsInput i) : Raises a i (.ioError a .input)
  | outputError (hi : WritesOutput i) : Raises a i (.ioError a .output)

section Raisers
variable {i : Instr} {s t : State}

theorem EndsByWriteDest.raises {dr : Reg} (h : EndsByWriteDest dr s t) (hrunning : s.status = .running)
    (hi : ReadsInput i) : Raises (s.pc - 1#16) i t.status := by
  rcases h with ⟨v, m, -, hstatus, rfl⟩ | ⟨-, hstatus⟩
  · rw [writeDest_status, hstatus, hrunning]
    exact .goesOn
  · rw [hstatus]
    exact .inputError hi

theorem execSti_raises {sr : Reg} {off : BitVec 9} (hrunning : s.status = .running) (h : execSti sr off s = .next t) :
    Raises (s.pc - 1#16) (.sti sr off) t.status := by
  rcases execSti_cases h with ⟨ptr, m, hread, rfl⟩ | hread
  · rw [memWrite_status, (memRead_ok_ioOnly hread).2.1, hrunning]
    exact .goesOn
  · rw [memRead_ended_status hread]
    exact .inputError (by simp [ReadsInput])

theorem serviceGetc_raises (hrunning : s.status = .running) (h : serviceGetc s = .next t) :
    Raises (s.pc - 1#16) .getc t.status := by
  rcases serviceGetc_cases h with ⟨c, p, rfl⟩ | ⟨p, rfl⟩ | rfl
  · exact hrunning ▸ .goesOn
  · exact .inputError (.inl rfl)
  · exact hrunning ▸ .goesOn

theorem serviceIn_raises (hrunning : s.status = .running) (h : serviceIn s = .next t) :
    Raises (s.pc - 1#16) .inp t.status := by
  have houtput : Raises (s.pc - 1#16) .inp (.ioError (s.pc - 1#16) .output) := .outputError (by simp [WritesOutput])
  rcases serviceIn_cases h with ⟨o, -, rfl⟩ | ⟨f, hbody⟩
  · exact houtput
  · rcases inBody_cases hbody with ⟨c, p, f, rfl⟩ | ⟨p, rfl⟩ | ⟨p, rfl⟩ | rfl
    · exact hrunning ▸ .goesOn
    · exact .inputError (by simp [ReadsInput])
    · exact houtput
    · exact hrunning ▸ .goesOn

theorem serviceOut_raises (hrunning : s.status = .running) (h : serviceOut s = .next t) :
    Raises (s.pc - 1#16) .out t.status := by
  rcases serviceOut_cases h with ⟨f, rfl⟩ | rfl
  · exact hrunning ▸ .goesOn
  · exact .outputError (.inl rfl)

theorem serviceHalt_raises (h : serviceHalt s = .next t) : Raises (s.pc - 1#16) .halt t.status := by
  rcases serviceHalt_cases h with ⟨f, rfl⟩ | ⟨o, -, rfl⟩
  · exact .halted rfl
  · exact .outputError (by simp [WritesOutput])

theorem writeString_raises {emit : Word → List Byte} (hi : StringService i emit) (hrunning : s.status = .running)
    (h : (writeString emit s).outcome none = .next t) : Raises (s.pc - 1#16) i t.status := by
  rcases (writeString_frame h).status with hstatus | ⟨dir, hstatus⟩
  · rw [hstatus, hrunning]
    exact .goesOn
  · rw [hstatus]
    have hname : i = .puts ∨ i = .putsp := hi.imp And.left And.left
    cases dir with
    | input => exact .inputError (by rcases hname with rfl | rfl <;> simp [ReadsInput])
    | output => exact .outputError (by rcases hname with rfl | rfl <;> simp [WritesOutput])

theorem exec_raises (hwf : i.wellFormed = true) (hrunning : s.status = .running) (h : exec i s = .next t) :
    Raises (s.pc - 1#16) i t.status := by
  match i, h with
  | .br n z p off, h =>
    cases (exec_br n z p off s).symm.trans h
    exact hrunning ▸ .goesOn
  | .jmp _, rfl | .jsr _, rfl | .jsrr _, rfl | .addReg _ _ _, rfl | .addImm _ _ _, rfl | .andReg _ _ _, rfl
  | .andImm _ _ _, rfl | .not _ _, rfl | .lea _ _, rfl => exact hrunning ▸ .goesOn
  | .st _ _, rfl | .str _ _ _, rfl =>
    rw [memWrite_status, hrunning]
    exact .goesOn
  | .ld _ _, h | .ldi _ _, h | .ldr _ _ _, h =>
    exact (exec_endsByWriteDest rfl h).raises hrunning (by simp [ReadsInput])
  | .sti _ _, h => exact execSti_raises hrunning h
  | .res u, rfl => exact .invalidOpcode (.inl ⟨u, rfl⟩)
  | .rti u, rfl => exact .invalidOpcode (.inr ⟨u, rfl⟩)
  | .trap v, h =>
    cases (exec_trap_of_wellFormed hwf).symm.trans h
    exact .invalidTrap v rfl
  | .getc, h => exact serviceGetc_raises (s := trapEntry s) hrunning h
  | .inp, h => exact serviceIn_raises (s := trapEntry s) hrunning h
  | .out, h => exact serviceOut_raises (s := trapEntry s) hrunning h
  | .halt, h => exact serviceHalt_raises (s := trapEntry s) h
  | .puts, h => exact writeString_raises (s := trapEntry s) (.inl ⟨rfl, rfl⟩) hrunning h
  | .putsp, h => exact writeString_raises (s := trapEntry s) (.inr ⟨rfl, rfl⟩) hrunning h

end Raisers

/-- Settles O59: each status of `Raises` carries its instruction and the address. -/
theorem terminalConditionsAndTheirRaisers : Obligations.TerminalConditionsAndTheirRaisers := by
  intro i s t hrunning hwf hexec
  have hraises := exec_raises hwf hrunning hexec
  generalize t.status = c at hraises
  cases hraises with
  | goesOn => trivial
  | halted hi => exact ⟨hi, rfl⟩
  | invalidOpcode hi => exact ⟨rfl, hi, rfl⟩
  | invalidTrap v hi => exact ⟨rfl, hi⟩
  | inputError hi => exact ⟨rfl, hi⟩
  | outputError hi => exact ⟨rfl, hi⟩

/-- TRAP with a vector is the service of the vector, or TRAP with a vector no service has (R150). -/
theorem exec_trap (v : BitVec 8) (s : State) : exec (.trap v) s = exec (decodeTrap v) s := by
  unfold decodeTrap
  split <;> rfl

/-- Every instruction runs as a well-formed one. -/
theorem exists_wellFormed_exec_eq (i : Instr) (s : State) : ∃ j : Instr, j.wellFormed = true ∧ exec i s = exec j s := by
  match i with
  | .trap v => exact ⟨decodeTrap v, wellFormed_decodeTrap v, exec_trap v s⟩
  | .br _ _ _ _ | .addReg _ _ _ | .addImm _ _ _ | .ld _ _ | .st _ _ | .jsr _ | .jsrr _ | .andReg _ _ _
  | .andImm _ _ _ | .ldr _ _ _ | .str _ _ _ | .rti _ | .not _ _ | .ldi _ _ | .sti _ _ | .jmp _ | .res _
  | .lea _ _ | .getc | .out | .puts | .inp | .putsp | .halt => exact ⟨_, rfl, rfl⟩

/-- The instructions that raise `InvalidOpcode` or `InvalidTrap` move no collaborator. -/
theorem exec_keepsIo_of_invalid {i : Instr} {s t : State} (hrunning : s.status = .running) (hexec : exec i s = .next t)
    (hinvalid : (∃ a ir, t.status = .invalidOpcode a ir) ∨ ∃ a v, t.status = .invalidTrap a v) : KeepsIo s t := by
  obtain ⟨j, hwf, hj⟩ := exists_wellFormed_exec_eq i s
  rw [hj] at hexec
  have hraises := exec_raises hwf hrunning hexec
  rcases hinvalid with ⟨a, ir, hstatus⟩ | ⟨a, v, hstatus⟩
  · rw [hstatus] at hraises
    cases hraises with
    | invalidOpcode hi =>
      rcases hi with ⟨u, rfl⟩ | ⟨u, rfl⟩ <;> cases hexec <;> exact ⟨rfl, rfl, rfl⟩
  · rw [hstatus] at hraises
    cases hraises with
    | invalidTrap _ hi =>
      subst hi
      cases (exec_trap_of_wellFormed hwf).symm.trans hexec
      exact ⟨rfl, rfl, rfl⟩

/-- What stays where a run has ended with the registers, the flags and memory as trap entry or the fetch left them. -/
theorem exec_ended_frame {i : Instr} {s t : State} (hrunning : s.status = .running) (hexec : exec i s = .next t)
    (hover : t.status ≠ .running) : KeepsRegs [7] s t ∧ t.cond = s.cond ∧ t.mem = s.mem := by
  have hofIo : IoOnly s t → KeepsRegs [7] s t ∧ t.cond = s.cond ∧ t.mem = s.mem := fun h =>
    ⟨fun r _ => h.getReg r, h.cond, h.mem⟩
  cases exec_end hexec with
  | dest _ h => exact hofIo (h.ended (hrunning ▸ hover))
  | char _ h =>
    obtain ⟨hregs, hcond⟩ := h.ended (by rwa [trapEntry_status, hrunning])
    exact ⟨hregs.of_trapEntry, hcond, h.mem⟩
  | service _ h => exact ⟨KeepsRegs.of_trapEntry (D := []) fun r _ => h.getReg r, h.cond, h.mem⟩
  | ended h _ => exact hofIo h
  | jump | call => exact absurd hrunning hover
  | store _ _ hstatus addr v => exact absurd ((memWrite_status addr v _).trans (hstatus.trans hrunning)) hover

/-- Settles O46: the frame of an instruction that ends the run, and the silence of those that raise an invalid one. -/
theorem endOfRunWritesNoRegisterButR7 : Obligations.EndOfRunWritesNoRegisterButR7 := by
  intro i s t hrunning hexec hover
  obtain ⟨hregs, hcond, hmem⟩ := exec_ended_frame hrunning hexec hover
  exact ⟨hregs, hcond, fun addr _ => by rw [wordAt, wordAt, hmem], exec_keepsIo_of_invalid hrunning hexec⟩

/-! No instruction stops the machine. -/

/-- A part of a step that does not go on for ever. -/
def Flow.Ends {α : Type} (r : Flow α) : Prop := ∀ a, r ≠ .endless a

section Ends
variable {i : Instr} {s m t : State}

theorem Flow.Ends.andThen {α β : Type} {r : Flow α} {k : α → State → Flow β} (hr : r.Ends)
    (hk : ∀ v m, (k v m).Ends) : (r.andThen k).Ends := by
  intro a h
  rcases andThen_eq_endless.1 h with h | ⟨v, m, -, h⟩
  · exact hr a h
  · exact hk v m a h

theorem ok_flowEnds {α : Type} (v : α) (s : State) : (Flow.ok v s).Ends := nofun

theorem memRead_flowEnds (a addr : Word) (s : State) : (memRead a addr s).Ends := by
  intro b h
  rcases memRead_ends a addr s with ⟨v, m, hread⟩ | ⟨m, hread⟩ <;> rw [hread] at h <;> cases h

theorem inRead_flowEnds (a : Word) (s : State) : (inRead a s).Ends := by
  intro b h
  rcases inRead_cases a s with ⟨c, p, hread⟩ | ⟨p, hread⟩ | ⟨hread, -⟩ <;> rw [hread] at h <;> cases h

theorem outBytes_flowEnds (a : Word) (bs : List Byte) (s : State) : (outBytes a bs s).Ends := by
  intro b h
  rcases outBytes_cases a bs s with ⟨f, hout⟩ | ⟨k, f, -, hout⟩ <;> rw [hout] at h <;> cases h

theorem outWrite_flowEnds (a : Word) (b : Byte) (s : State) : (outWrite a b s).Ends := by
  intro b' h
  rcases outWrite_cases a b s with ⟨f, hout⟩ | ⟨-, hout⟩ <;> rw [hout] at h <;> cases h

theorem loadDest_flowEnds (dr : Reg) (addr : Word) (s : State) : (loadDest dr addr s).Ends :=
  (memRead_flowEnds _ _ s).andThen fun _ _ => ok_flowEnds _ _

theorem getcBody_flowEnds (s : State) : (getcBody s).Ends :=
  (inRead_flowEnds _ s).andThen fun _ _ => ok_flowEnds _ _

theorem inBody_flowEnds (s : State) : (inBody s).Ends :=
  (inRead_flowEnds _ s).andThen fun _ t => (outWrite_flowEnds _ _ t).andThen fun _ _ => ok_flowEnds _ _

theorem haltBody_flowEnds (s : State) : (haltBody s).Ends :=
  (outBytes_flowEnds _ _ s).andThen fun _ _ => ok_flowEnds _ _

/-- On finite input every instruction gives a next state; only a string could go on for ever. -/
theorem exec_next_of_finite (i : Instr) (hfin : FiniteInput s.input) : ∃ t, exec i s = .next t := by
  obtain ⟨j, hwf, hj⟩ := exists_wellFormed_exec_eq i s
  rw [hj]
  match j with
  | .br _ _ _ _ | .jmp _ | .jsr _ | .jsrr _ | .addReg _ _ _ | .addImm _ _ _ | .andReg _ _ _ | .andImm _ _ _ | .not _ _
  | .lea _ _ | .st _ _ | .str _ _ _ | .res _ | .rti _ => exact ⟨_, rfl⟩
  | .trap v => exact ⟨_, exec_trap_of_wellFormed hwf⟩
  | .ld _ _ | .ldr _ _ _ => exact exists_next_of_ends (loadDest_flowEnds _ _ s)
  | .ldi _ _ =>
    exact exists_next_of_ends ((memRead_flowEnds _ _ s).andThen fun _ _ => loadDest_flowEnds _ _ _)
  | .sti _ _ => exact exists_next_of_ends ((memRead_flowEnds _ _ s).andThen fun _ _ => ok_flowEnds _ _)
  | .getc => exact exists_next_of_ends (getcBody_flowEnds _)
  | .inp => exact exists_next_of_ends ((outBytes_flowEnds _ _ _).andThen fun _ _ => inBody_flowEnds _)
  | .out => exact exists_next_of_ends (outWrite_flowEnds _ _ _)
  | .halt => exact exists_next_of_ends (haltBody_flowEnds _)
  | .puts =>
    obtain ⟨t, hexec, -⟩ := stringsEndOnFiniteInput .puts s (.inl rfl) hfin
    exact ⟨t, hexec⟩
  | .putsp =>
    obtain ⟨t, hexec, -⟩ := stringsEndOnFiniteInput .putsp s (.inr rfl) hfin
    exact ⟨t, hexec⟩

theorem resumeWait_next (w : InputWait) (s : State) : ∃ t, resumeWait w s = .next t := by
  cases w with
  | getc => exact exists_next_of_ends (getcBody_flowEnds _)
  | inp => exact exists_next_of_ends (inBody_flowEnds _)

/-- What follows the queued answers is not changed by a read. -/
theorem memRead_tail {a addr w : Word} (h : memRead a addr s = .ok w m) : m.input.tail = s.input.tail := by
  by_cases haddr : addr = s.cfg.kbsrAddr
  · rw [memRead_kbsr haddr] at h
    by_cases hw : w = 0#16
    · subst hw
      cases hanswer : s.input.polls.headD true && inputReady s.input with
      | false =>
        rw [kbsrRead_notReady hanswer] at h
        cases h
        rfl
      | true =>
        obtain ⟨hpoll, hready⟩ := Bool.and_eq_true_iff.1 hanswer
        rw [kbsrRead_ready hpoll hready] at h
        obtain ⟨c, n, -, hzero⟩ := andThen_eq_ok.1 h
        cases hzero
    · exact (polledOnce_of_kbsrRead h hw).tail
  · rw [memRead_eq_of_ne_kbsr haddr h]

end Ends

/-- Settles O51: a wait goes on or ends, a fetch gives a word or ends the run, and the word's instruction gives a next
state. -/
theorem runningMachineSteps : Obligations.RunningMachineSteps := by
  intro s hrunning hfin
  cases hwait : s.wait with
  | some w =>
    rw [step_waiting hrunning hwait]
    exact resumeWait_next w s
  | none =>
    rcases memRead_ends s.pc s.pc s with ⟨ir, m, hread⟩ | ⟨m, hread⟩
    · rw [step_of_read hrunning hwait hread]
      exact exec_next_of_finite (decode ir) fun c => memRead_tail hread ▸ hfin c
    · exact ⟨m, step_failed hrunning hwait (fetch_of_ended hread)⟩

end Sys2Proof.Machine
